-- ==== Sys2Proof/Word.lean ====
section
/-! DEFINITION. The three widths of the block (00_scope.md R6, R7; 30_encoding.md R54). -/

namespace Sys2Proof

/-- A bus data value and a MEM cell: 8 bits (`DATA_W`, R6). -/
abbrev Byte := BitVec 8

/-- A bus address: 16 bits (`ADDR_W`, R6). -/
abbrev Addr := BitVec 16

/-- A transaction word: 32 bits (R54, decision D16). -/
abbrev Word := BitVec 32

end Sys2Proof
end

