-- ==== Sys2Proof/Syntax.lean ====
section
/-! DEFINITION. The transactions of the block, one constructor per row of spec/opcode_table.json. -/

namespace Sys2Proof

/-- The 19 register identities, "a closed enumeration of named hardware registers" (10_state.md R18; log 3). -/
inductive RegId where
  | JOYP
  | DIV
  | DIVLSB
  | TIMA
  | TMA
  | TAC
  | IF
  | IE
  | LCDC
  | STAT
  | SCY
  | SCX
  | LY
  | LYC
  | BGP
  | OBP0
  | OBP1
  | DMA
  | BOOT_ROM_DISABLE
  deriving DecidableEq, Repr

/-- A transaction (10_state.md R15, 30_encoding.md R56, R60, R61): a row of the opcode table and its operands. -/
inductive Instr where
  /-- `BUS_RD` at an address with no register bound (R83). -/
  | busRdMem (addr : Addr)
  /-- `BUS_RD` at `REG_ADDR(JOYP)`. -/
  | busRdJoyp
  /-- `BUS_RD` at `REG_ADDR(DIV)`. -/
  | busRdDiv
  /-- `BUS_RD` at `REG_ADDR(DIVLSB)`. -/
  | busRdDivlsb
  /-- `BUS_RD` at `REG_ADDR(TIMA)`. -/
  | busRdTima
  /-- `BUS_RD` at `REG_ADDR(TMA)`. -/
  | busRdTma
  /-- `BUS_RD` at `REG_ADDR(TAC)`. -/
  | busRdTac
  /-- `BUS_RD` at `REG_ADDR(IF)`. -/
  | busRdIf
  /-- `BUS_RD` at `REG_ADDR(IE)`. -/
  | busRdIe
  /-- `BUS_RD` at `REG_ADDR(LCDC)`. -/
  | busRdLcdc
  /-- `BUS_RD` at `REG_ADDR(STAT)`. -/
  | busRdStat
  /-- `BUS_RD` at `REG_ADDR(SCY)`. -/
  | busRdScy
  /-- `BUS_RD` at `REG_ADDR(SCX)`. -/
  | busRdScx
  /-- `BUS_RD` at `REG_ADDR(LY)`. -/
  | busRdLy
  /-- `BUS_RD` at `REG_ADDR(LYC)`. -/
  | busRdLyc
  /-- `BUS_RD` at `REG_ADDR(BGP)`. -/
  | busRdBgp
  /-- `BUS_RD` at `REG_ADDR(OBP0)`. -/
  | busRdObp0
  /-- `BUS_RD` at `REG_ADDR(OBP1)`. -/
  | busRdObp1
  /-- `BUS_RD` at `REG_ADDR(DMA)`. -/
  | busRdDma
  /-- `BUS_RD` at `REG_ADDR(BOOT_ROM_DISABLE)`. -/
  | busRdBootRomDisable
  /-- `BUS_WR` in 0x0000..0x7FFF (R85). -/
  | busWrRom (addr : Addr) (v : Byte)
  /-- `BUS_WR` at `SERIAL_ADDR` (R86). -/
  | busWrSerial (v : Byte)
  /-- `BUS_WR` at `REG_ADDR(JOYP)`. -/
  | busWrJoyp (v : Byte)
  /-- `BUS_WR` at `REG_ADDR(DIV)`. -/
  | busWrDiv (v : Byte)
  /-- `BUS_WR` at `REG_ADDR(DIVLSB)`. -/
  | busWrDivlsb (v : Byte)
  /-- `BUS_WR` at `REG_ADDR(TIMA)`. -/
  | busWrTima (v : Byte)
  /-- `BUS_WR` at `REG_ADDR(TMA)`. -/
  | busWrTma (v : Byte)
  /-- `BUS_WR` at `REG_ADDR(TAC)`. -/
  | busWrTac (v : Byte)
  /-- `BUS_WR` at `REG_ADDR(IF)`. -/
  | busWrIf (v : Byte)
  /-- `BUS_WR` at `REG_ADDR(IE)`. -/
  | busWrIe (v : Byte)
  /-- `BUS_WR` at `REG_ADDR(LCDC)`. -/
  | busWrLcdc (v : Byte)
  /-- `BUS_WR` at `REG_ADDR(STAT)`. -/
  | busWrStat (v : Byte)
  /-- `BUS_WR` at `REG_ADDR(SCY)`. -/
  | busWrScy (v : Byte)
  /-- `BUS_WR` at `REG_ADDR(SCX)`. -/
  | busWrScx (v : Byte)
  /-- `BUS_WR` at `REG_ADDR(LY)`. -/
  | busWrLy (v : Byte)
  /-- `BUS_WR` at `REG_ADDR(LYC)`. -/
  | busWrLyc (v : Byte)
  /-- `BUS_WR` at `REG_ADDR(BGP)`. -/
  | busWrBgp (v : Byte)
  /-- `BUS_WR` at `REG_ADDR(OBP0)`. -/
  | busWrObp0 (v : Byte)
  /-- `BUS_WR` at `REG_ADDR(OBP1)`. -/
  | busWrObp1 (v : Byte)
  /-- `BUS_WR` at `REG_ADDR(DMA)`. -/
  | busWrDma (v : Byte)
  /-- `BUS_WR` at `REG_ADDR(BOOT_ROM_DISABLE)`. -/
  | busWrBootRomDisable (v : Byte)
  /-- `BUS_WR` in 0xC000..0xDDFF (R89). -/
  | busWrEchoA (addr : Addr) (v : Byte)
  /-- `BUS_WR` in 0xE000..0xFDFF (R90). -/
  | busWrEchoB (addr : Addr) (v : Byte)
  /-- `BUS_WR` at any other address (R88). -/
  | busWrPlain (addr : Addr) (v : Byte)
  /-- `REG_GET` (R91). -/
  | regGet (id : RegId)
  /-- `REG_SET` (R92). -/
  | regSet (id : RegId) (v : Byte)
  /-- `LOAD_CART` (R97). -/
  | loadCart
  deriving DecidableEq, Repr

end Sys2Proof
end

