-- ==== Sys2Proof/Machine/Devices.lean ====
section
/-! DEFINITION. The interfaces the block consumes: what it asks, what it calls, and what it is answered (60_exceptions.md R106). -/

namespace Sys2Proof

/-- The external devices of R106. -/
inductive Device where
  | timer
  | video
  | surface
  | inputSource
  | dma
  | cartridge
  deriving DecidableEq, Repr

/-- The queries (`ask`) of R106. -/
inductive Query where
  | getTicksSinceOverflow
  | isTimerEnabled
  | getTickRateBit
  | getPressedInputs
  | cartRead
  deriving DecidableEq, Repr

/-- The calls (`call`) of R106, with their arguments. -/
inductive DeviceCall where
  | checkTIMAUnexpectedIncrease
  | unsetOverflow
  | setTIMA (v : Byte)
  | setIFOverride
  | videoReset
  | surfaceClear
  | startTransfer (source : Addr)
  deriving DecidableEq, Repr

/-- Whose query it is (R106 column device). -/
def queryDevice : Query → Device
  | .getTicksSinceOverflow | .isTimerEnabled | .getTickRateBit => .timer
  | .getPressedInputs => .inputSource
  | .cartRead => .cartridge

/-- Whose call it is (R106 column device). -/
def callDevice : DeviceCall → Device
  | .checkTIMAUnexpectedIncrease | .unsetOverflow | .setTIMA _ | .setIFOverride => .timer
  | .videoReset => .video
  | .surfaceClear => .surface
  | .startTransfer _ => .dma

/-- The devices a register binds at its construction (10_state.md R18 column device reference, R34). For
BOOT_ROM_DISABLE that is the owning MMU, whose loader asks the cartridge source. -/
def deviceRefs : RegId → List Device
  | .JOYP => [.inputSource]
  | .DIV | .DIVLSB | .TIMA | .TMA | .TAC | .IF => [.timer]
  | .LCDC => [.video, .surface]
  | .DMA => [.dma]
  | .BOOT_ROM_DISABLE => [.cartridge]
  | .IE | .STAT | .SCY | .SCX | .LY | .LYC | .BGP | .OBP0 | .OBP1 => []

/-- A device-port transaction a called device issues before it returns (70_reset_and_hazards.md R119, D15). -/
inductive PortOp where
  | get (id : RegId)
  | set (id : RegId) (v : Byte)
  deriving DecidableEq, Repr

/-- What the cartridge source answers: an image of any length, or an I/O failure (44_cartridge_boot.md R94). -/
inductive CartAnswer where
  | image (bytes : List Byte)
  | failure
  deriving DecidableEq, Repr

/-- `{selectBit, pressedBit}` of one pressed input (R69, R106). -/
structure Pressed where
  sel : Byte
  prs : Byte
  deriving DecidableEq, Repr

/-- The contract of an input pair: `sel` is 0x10 or 0x20 and `prs` is 0x01, 0x02, 0x04 or 0x08 (R69, D7). -/
def inContract (p : Pressed) : Bool :=
  (p.sel == 0x10 || p.sel == 0x20) && (p.prs == 0x01 || p.prs == 0x02 || p.prs == 0x04 || p.prs == 0x08)

/-- A pair within the contract, by construction: which select bit, and which of the four report bits. -/
abbrev Key := Bool × Fin 4

/-- The pair a key stands for. -/
def keyPressed (k : Key) : Pressed :=
  { sel := if k.1 then 0x20 else 0x10, prs := 0x01#8 <<< k.2.val }

/-- One answer of a device, an input of the step (R8, R106, D10). A script of answers is given in the order the block
asks and calls (70_reset_and_hazards.md R116). -/
inductive Answer where
  /-- To `getTicksSinceOverflow()`. -/
  | ticks (t : Nat)
  /-- To `isTimerEnabled()`. -/
  | enabled (b : Bool)
  /-- To `getTickRateBit()`. -/
  | rateBit (b : Bool)
  /-- To `getPressedInputs()`. -/
  | inputs (ps : List Pressed)
  /-- To the cartridge query. -/
  | cart (c : CartAnswer)
  /-- To a call: the transactions the called device issues before it returns. -/
  | returns (txns : List Instr)
  deriving DecidableEq, Repr

/-- What a step does at its interfaces, in program order (R8, R116): a query, a call, or a device-port access made by
a called device, with the value it read or stored. -/
inductive Event where
  | asked (q : Query)
  | called (c : DeviceCall)
  | portGet (id : RegId) (v : Byte)
  | portSet (id : RegId) (v : Byte)
  deriving DecidableEq, Repr

end Sys2Proof
end

