-- ==== Sys2Proof/Config.lean ====
section
/-! DEFINITION. The parameters the spec leaves open (00_scope.md R6) and the free values (60_exceptions.md R106, D10). -/

namespace Sys2Proof

/-- The two OPEN parameters of R6. -/
structure Config.Params where
  /-- `M_CYCLE_TICKS`, a positive natural (D8). -/
  mCycleTicks : Nat
  /-- `BOOT_IMAGE`, at most 0x8000 bytes (D12). -/
  bootImage : List Byte
  deriving DecidableEq, Repr

/-- The constraints R6 puts on them. -/
abbrev Config.Params.valid (p : Config.Params) : Prop := 0 < p.mCycleTicks ∧ p.bootImage.length ≤ 0x8000

/-- `M_CYCLE_TICKS` less one, a free value: nothing says which (D8, log 4). -/
opaque Config.mCycleTicksLessOne : Nat

/-- What `getTicksSinceOverflow()` answers where no answer is scripted (D10, K6, log 7). -/
opaque Config.freeTicks : Nat → Nat

/-- What `isTimerEnabled()` answers where no answer is scripted (D10, K7, log 7). -/
opaque Config.freeEnabled : Nat → Bool

/-- What `getTickRateBit()` answers where no answer is scripted (D10, K7, log 7). -/
opaque Config.freeRateBit : Nat → Bool

/-- Which inputs are pressed where no answer is scripted, each within the contract of R69 (D10, K7, log 8). -/
opaque Config.freeKeys : Nat → List Key

/-- What the image query is answered where no answer is scripted: `none` is a failure (D14, K1, log 7). -/
opaque Config.freeCart : Nat → Option (List Byte)

/-- What a called device issues before it returns where nothing is scripted (D15, K8, log 9). -/
opaque Config.freePortOps : Nat → List PortOp

/-- The parameters of `State.reset`: M_CYCLE_TICKS free (log 4) and no boot image (DESIGN CHOICE, log 5). -/
def Config.resetParams : Config.Params := { mCycleTicks := Config.mCycleTicksLessOne + 1, bootImage := [] }

end Sys2Proof
end

