-- ==== Sys2Proof/Machine/AddressMap.lean ====
section
/-! DEFINITION. The register table and the bus address map (10_state.md R18, R20; 20_memory.md R41). -/

namespace Sys2Proof

/-- The batches of `initializeMemRegisters()` (R18 column group, 70_reset_and_hazards.md R112, decision D21). -/
inductive RegGroup where
  | input
  | timing
  | video
  | interrupts
  | control
  deriving DecidableEq, Repr

/-- The identities in the order of their codes (30_encoding.md R57). -/
def allRegIds : List RegId :=
  [.JOYP, .DIV, .DIVLSB, .TIMA, .TMA, .TAC, .IF, .IE, .LCDC, .STAT,
   .SCY, .SCX, .LY, .LYC, .BGP, .OBP0, .OBP1, .DMA, .BOOT_ROM_DISABLE]

/-- Column code of R18; the `ID` field of a device-port word (R57). -/
def regCode : RegId → BitVec 5
  | .JOYP => 0 | .DIV => 1 | .DIVLSB => 2 | .TIMA => 3 | .TMA => 4 | .TAC => 5 | .IF => 6
  | .IE => 7 | .LCDC => 8 | .STAT => 9 | .SCY => 10 | .SCX => 11 | .LY => 12 | .LYC => 13
  | .BGP => 14 | .OBP0 => 15 | .OBP1 => 16 | .DMA => 17 | .BOOT_ROM_DISABLE => 18

/-- The identity of a code; codes 19..31 have none (R57, R58). -/
def regOfCode (c : BitVec 5) : Option RegId := allRegIds[c.toNat]?

/-- `REG_ADDR` (R18 column address, R63). PRESUMED: the defaults of decision D3, log 1. -/
def regAddr : RegId → Addr
  | .JOYP => 0xFF00 | .DIV => 0xFF04 | .DIVLSB => 0xFF03 | .TIMA => 0xFF05 | .TMA => 0xFF06
  | .TAC => 0xFF07 | .IF => 0xFF0F | .IE => 0xFFFF | .LCDC => 0xFF40 | .STAT => 0xFF41
  | .SCY => 0xFF42 | .SCX => 0xFF43 | .LY => 0xFF44 | .LYC => 0xFF45 | .BGP => 0xFF47
  | .OBP0 => 0xFF48 | .OBP1 => 0xFF49 | .DMA => 0xFF46 | .BOOT_ROM_DISABLE => 0xFF50

/-- `SERIAL_ADDR` (00_scope.md R6). PRESUMED: the default of decision D4, log 2. -/
def serialAddr : Addr := 0xFF01

/-- `FH(id)`, the force-high storage mask (R18, 40_register_storage.md R64). -/
def forceHigh : RegId → Byte
  | .JOYP => 0xC0
  | .IF => 0xE0
  | .IE => 0xE0
  | .STAT => 0x80
  | .DIV | .DIVLSB | .TIMA | .TMA | .TAC | .LCDC | .SCY | .SCX | .LY | .LYC | .BGP
  | .OBP0 | .OBP1 | .DMA | .BOOT_ROM_DISABLE => 0x00

/-- Column group of R18. -/
def regGroup : RegId → RegGroup
  | .JOYP => .input
  | .DIV | .DIVLSB | .TIMA | .TMA | .TAC => .timing
  | .LCDC | .STAT | .SCY | .SCX | .LY | .LYC | .BGP | .OBP0 | .OBP1 => .video
  | .IF | .IE => .interrupts
  | .DMA | .BOOT_ROM_DISABLE => .control

/-- The batches in the order `initializeMemRegisters()` constructs them (R112). -/
def batchOrder : List RegGroup := [.input, .timing, .video, .interrupts, .control]

/-- The register directory, built once at reset and never changed: one map keyed by address with the identity
beside it, as R20 allows, in the order of construction (R112). -/
def directory : List (Addr × RegId) :=
  batchOrder.flatMap fun g =>
    (allRegIds.filter fun id => regGroup id == g).map fun id => (regAddr id, id)

/-- The identity a directory binds at an address. -/
def lookupReg (a : Addr) : List (Addr × RegId) → Option RegId
  | [] => none
  | (b, id) :: rest => if a = b then some id else lookupReg a rest

/-- `RegAt(a)` (R20). -/
def regAt (a : Addr) : Option RegId := lookupReg a directory

/-- `ROM_LO..ROM_HI`, 0x0000..0x7FFF (R6). -/
def inRom (a : Addr) : Bool := a.toNat ≤ 0x7FFF

/-- The low echo range, 0xC000..0xDDFF (R6). -/
def inEchoA (a : Addr) : Bool := 0xC000 ≤ a.toNat && a.toNat ≤ 0xDDFF

/-- The high echo range, 0xE000..0xFDFF (R6). -/
def inEchoB (a : Addr) : Bool := 0xE000 ≤ a.toNat && a.toNat ≤ 0xFDFF

/-- The regions of R41. -/
inductive Region where
  | rom
  | reg (id : RegId)
  | echoA
  | echoB
  | plain
  deriving DecidableEq, Repr

/-- `Region(a)`: "the first matching line wins" (R41). -/
def region (a : Addr) : Region :=
  if inRom a then .rom
  else match regAt a with
    | some id => .reg id
    | none => if inEchoA a then .echoA else if inEchoB a then .echoB else .plain

end Sys2Proof
end

