-- ==== Sys2Proof/WellFormed.lean ====
section
/-! DEFINITION. Which instruction terms are rows of the opcode table with operands the row admits (30_encoding.md R60, R61). -/

namespace Sys2Proof

/-- The check a row puts on its address operand; the other operands are any value of their width. -/
def wellFormed : Instr → Bool
  | .busRdMem addr => (regAt addr).isNone
  | .busRdJoyp | .busRdDiv | .busRdDivlsb | .busRdTima | .busRdTma | .busRdTac | .busRdIf
  | .busRdIe | .busRdLcdc | .busRdStat | .busRdScy | .busRdScx | .busRdLy | .busRdLyc
  | .busRdBgp | .busRdObp0 | .busRdObp1 | .busRdDma | .busRdBootRomDisable => true
  | .busWrRom addr _ => inRom addr
  | .busWrSerial _ => true
  | .busWrJoyp _ | .busWrDiv _ | .busWrDivlsb _ | .busWrTima _ | .busWrTma _ | .busWrTac _
  | .busWrIf _ | .busWrIe _ | .busWrLcdc _ | .busWrStat _ | .busWrScy _ | .busWrScx _
  | .busWrLy _ | .busWrLyc _ | .busWrBgp _ | .busWrObp0 _ | .busWrObp1 _ | .busWrDma _
  | .busWrBootRomDisable _ => true
  | .busWrEchoA addr _ => region addr == .echoA
  | .busWrEchoB addr _ => region addr == .echoB
  | .busWrPlain addr _ => region addr == .plain && addr != serialAddr
  | .regGet _ => true
  | .regSet _ _ => true
  | .loadCart => true

end Sys2Proof
end

