-- ==== Sys2Proof/Decode.lean ====
section
/-! DEFINITION. Decoding and encoding of transaction words (30_encoding.md R54 to R62). -/

namespace Sys2Proof

/-- Why a word spells no transaction (R58), in the order the decoder looks. -/
inductive Illegal where
  /-- `OP` is 0x0 or 0x6..0xF. -/
  | reservedOp
  /-- `RSV` is not 0. -/
  | rsvNotZero
  /-- `DATA` is not 0 in `BUS_RD` or `REG_GET`. -/
  | dataNotZero
  /-- `RSV2` is not 0 in `REG_GET` or `REG_SET`. -/
  | rsv2NotZero
  /-- `ID` is 19..31. -/
  | noSuchRegister
  /-- Bits 23:0 are not 0 in `LOAD_CART`. -/
  | loadBitsNotZero
  deriving DecidableEq, Repr

/-! ## The fields of R54 -/

/-- `OP`, bits 31:28. -/
def fieldOp (w : Word) : BitVec 4 := w.extractLsb' 28 4

/-- `RSV`, bits 27:24. -/
def fieldRsv (w : Word) : BitVec 4 := w.extractLsb' 24 4

/-- `ADDR`, bits 23:8. -/
def fieldAddr (w : Word) : Addr := w.extractLsb' 8 16

/-- `RSV2`, bits 23:13. -/
def fieldRsv2 (w : Word) : BitVec 11 := w.extractLsb' 13 11

/-- `ID`, bits 12:8. -/
def fieldId (w : Word) : BitVec 5 := w.extractLsb' 8 5

/-- `DATA`, bits 7:0. -/
def fieldData (w : Word) : Byte := w.extractLsb' 0 8

/-! ## The rows a bus address selects -/

/-- Row `BUS_RD.<id>` (R60). -/
def busRdRow : RegId → Instr
  | .JOYP => .busRdJoyp
  | .DIV => .busRdDiv
  | .DIVLSB => .busRdDivlsb
  | .TIMA => .busRdTima
  | .TMA => .busRdTma
  | .TAC => .busRdTac
  | .IF => .busRdIf
  | .IE => .busRdIe
  | .LCDC => .busRdLcdc
  | .STAT => .busRdStat
  | .SCY => .busRdScy
  | .SCX => .busRdScx
  | .LY => .busRdLy
  | .LYC => .busRdLyc
  | .BGP => .busRdBgp
  | .OBP0 => .busRdObp0
  | .OBP1 => .busRdObp1
  | .DMA => .busRdDma
  | .BOOT_ROM_DISABLE => .busRdBootRomDisable

/-- Row `BUS_WR.<id>` (R61 step 3). -/
def busWrRow (id : RegId) (v : Byte) : Instr :=
  match id with
  | .JOYP => .busWrJoyp v
  | .DIV => .busWrDiv v
  | .DIVLSB => .busWrDivlsb v
  | .TIMA => .busWrTima v
  | .TMA => .busWrTma v
  | .TAC => .busWrTac v
  | .IF => .busWrIf v
  | .IE => .busWrIe v
  | .LCDC => .busWrLcdc v
  | .STAT => .busWrStat v
  | .SCY => .busWrScy v
  | .SCX => .busWrScx v
  | .LY => .busWrLy v
  | .LYC => .busWrLyc v
  | .BGP => .busWrBgp v
  | .OBP0 => .busWrObp0 v
  | .OBP1 => .busWrObp1 v
  | .DMA => .busWrDma v
  | .BOOT_ROM_DISABLE => .busWrBootRomDisable v

/-- Address decode of a bus read (R60). -/
def decodeRead (addr : Addr) : Instr :=
  match regAt addr with
  | some id => busRdRow id
  | none => .busRdMem addr

/-- Address decode of a bus write, in the step order of R61. The row `BUS_WR.SERIAL` carries the continuation of its
write in its meaning. -/
def decodeWrite (addr : Addr) (v : Byte) : Instr :=
  if inRom addr then .busWrRom addr v
  else if addr = serialAddr then .busWrSerial v
  else match regAt addr with
    | some id => busWrRow id v
    | none =>
      if inEchoA addr then .busWrEchoA addr v
      else if inEchoB addr then .busWrEchoB addr v
      else .busWrPlain addr v

/-- Decoding of a transaction word: total, rejecting by name (R54, R56, R58). -/
def decode (w : Word) : Except Illegal Instr :=
  if ¬ (1 ≤ (fieldOp w).toNat ∧ (fieldOp w).toNat ≤ 5) then .error .reservedOp
  else if fieldRsv w ≠ 0 then .error .rsvNotZero
  else if fieldOp w = 1 then
    if fieldData w ≠ 0 then .error .dataNotZero else .ok (decodeRead (fieldAddr w))
  else if fieldOp w = 2 then .ok (decodeWrite (fieldAddr w) (fieldData w))
  else if fieldOp w = 3 then
    if fieldRsv2 w ≠ 0 then .error .rsv2NotZero
    else if fieldData w ≠ 0 then .error .dataNotZero
    else match regOfCode (fieldId w) with
      | some id => .ok (.regGet id)
      | none => .error .noSuchRegister
  else if fieldOp w = 4 then
    if fieldRsv2 w ≠ 0 then .error .rsv2NotZero
    else match regOfCode (fieldId w) with
      | some id => .ok (.regSet id (fieldData w))
      | none => .error .noSuchRegister
  else if fieldAddr w ≠ 0 ∨ fieldData w ≠ 0 then .error .loadBitsNotZero
  else .ok .loadCart

/-! ## Encoding -/

/-- A word of R54 with `RSV` 0: `OP`, bits 23:8, bits 7:0. -/
def wordOf (op : BitVec 4) (mid : Addr) (data : Byte) : Word :=
  BitVec.ofNat 32 (op.toNat * 2 ^ 28 + mid.toNat * 2 ^ 8 + data.toNat)

/-- Bits 23:8 of a device-port word: `RSV2` 0, then `ID` (R54). -/
def midOfId (id : RegId) : Addr := (regCode id).setWidth 16

/-- Word of `BUS_RD addr` (R54, R56). -/
def wordRead (addr : Addr) : Word := wordOf 0x1 addr 0

/-- Word of `BUS_WR addr, v` (R54, R56). -/
def wordWrite (addr : Addr) (v : Byte) : Word := wordOf 0x2 addr v

/-- Word of `REG_GET id` (R54, R56). -/
def wordGet (id : RegId) : Word := wordOf 0x3 (midOfId id) 0

/-- Word of `REG_SET id, v` (R54, R56). -/
def wordSet (id : RegId) (v : Byte) : Word := wordOf 0x4 (midOfId id) v

/-- The word of a well-formed instruction. -/
def encode : Instr → Word
  | .busRdMem addr => wordRead addr
  | .busRdJoyp => wordRead (regAddr .JOYP)
  | .busRdDiv => wordRead (regAddr .DIV)
  | .busRdDivlsb => wordRead (regAddr .DIVLSB)
  | .busRdTima => wordRead (regAddr .TIMA)
  | .busRdTma => wordRead (regAddr .TMA)
  | .busRdTac => wordRead (regAddr .TAC)
  | .busRdIf => wordRead (regAddr .IF)
  | .busRdIe => wordRead (regAddr .IE)
  | .busRdLcdc => wordRead (regAddr .LCDC)
  | .busRdStat => wordRead (regAddr .STAT)
  | .busRdScy => wordRead (regAddr .SCY)
  | .busRdScx => wordRead (regAddr .SCX)
  | .busRdLy => wordRead (regAddr .LY)
  | .busRdLyc => wordRead (regAddr .LYC)
  | .busRdBgp => wordRead (regAddr .BGP)
  | .busRdObp0 => wordRead (regAddr .OBP0)
  | .busRdObp1 => wordRead (regAddr .OBP1)
  | .busRdDma => wordRead (regAddr .DMA)
  | .busRdBootRomDisable => wordRead (regAddr .BOOT_ROM_DISABLE)
  | .busWrRom addr v => wordWrite addr v
  | .busWrSerial v => wordWrite serialAddr v
  | .busWrJoyp v => wordWrite (regAddr .JOYP) v
  | .busWrDiv v => wordWrite (regAddr .DIV) v
  | .busWrDivlsb v => wordWrite (regAddr .DIVLSB) v
  | .busWrTima v => wordWrite (regAddr .TIMA) v
  | .busWrTma v => wordWrite (regAddr .TMA) v
  | .busWrTac v => wordWrite (regAddr .TAC) v
  | .busWrIf v => wordWrite (regAddr .IF) v
  | .busWrIe v => wordWrite (regAddr .IE) v
  | .busWrLcdc v => wordWrite (regAddr .LCDC) v
  | .busWrStat v => wordWrite (regAddr .STAT) v
  | .busWrScy v => wordWrite (regAddr .SCY) v
  | .busWrScx v => wordWrite (regAddr .SCX) v
  | .busWrLy v => wordWrite (regAddr .LY) v
  | .busWrLyc v => wordWrite (regAddr .LYC) v
  | .busWrBgp v => wordWrite (regAddr .BGP) v
  | .busWrObp0 v => wordWrite (regAddr .OBP0) v
  | .busWrObp1 v => wordWrite (regAddr .OBP1) v
  | .busWrDma v => wordWrite (regAddr .DMA) v
  | .busWrBootRomDisable v => wordWrite (regAddr .BOOT_ROM_DISABLE) v
  | .busWrEchoA addr v => wordWrite addr v
  | .busWrEchoB addr v => wordWrite addr v
  | .busWrPlain addr v => wordWrite addr v
  | .regGet id => wordGet id
  | .regSet id v => wordSet id v
  | .loadCart => wordOf 0x5 0 0

/-- A line of the assembler (R59); a register name standing for an address is `regAddr id`. -/
inductive AsmLine where
  | rd (addr : Addr)
  | wr (addr : Addr) (v : Byte)
  | get (id : RegId)
  | set (id : RegId) (v : Byte)
  | load
  deriving DecidableEq, Repr

/-- The word of an assembler line, as R59 writes it. -/
def assemble : AsmLine → Word
  | .rd addr => 0x10000000#32 ||| (addr.setWidth 32 <<< 8)
  | .wr addr v => 0x20000000#32 ||| (addr.setWidth 32 <<< 8) ||| v.setWidth 32
  | .get id => 0x30000000#32 ||| ((regCode id).setWidth 32 <<< 8)
  | .set id v => 0x40000000#32 ||| ((regCode id).setWidth 32 <<< 8) ||| v.setWidth 32
  | .load => 0x50000000#32

/-- The instruction the decoder reads from an instruction whose bits are `w`, numbered as the opcode table numbers
them; bits at and above `nbits` are 0. The word is the unit the block receives, so no byte order enters (R54, log 24). -/
def decodeTableWord (nbits w : Nat) : Option Instr :=
  if nbits ≤ 32 then (decode (BitVec.ofNat 32 (w % 2 ^ nbits))).toOption else none

end Sys2Proof
end

