-- ==== Sys2Proof/Machine/Memory.lean ====
section
/-! DEFINITION. MEM and its primitives (20_memory.md R37 to R39), the registers' storage in it (40_register_storage.md), the
cartridge load and the boot overlay (44_cartridge_boot.md R95, R98). -/

namespace Sys2Proof.Machine

/-- MEM as its cells that do not hold `unlisted`, by rising address. -/
abbrev Memory := List Host.Cell

/-- What an unlisted address reads as: MEM is "zero-initialized at construction" (10_state.md R12). -/
def unlisted : Byte := 0x00

/-- The canonical form from address `lo` on: addresses rising, below 65536, and no cell equal to `unlisted`. -/
def Memory.wfFrom (lo : Nat) : Memory → Bool
  | [] => true
  | (k, v) :: m => decide (lo ≤ k) && decide (k < 0x10000) && v != unlisted && Memory.wfFrom (k + 1) m

/-- The canonical form. -/
def Memory.wf (m : Memory) : Bool := Memory.wfFrom 0 m

/-- The cell at an address. -/
def Memory.cell : Memory → Nat → Byte
  | [], _ => unlisted
  | (k, v) :: m, a => if a = k then v else Memory.cell m a

/-- Sets the cell at an address, keeping the canonical form. -/
def Memory.setCell : Memory → Nat → Byte → Memory
  | [], a, v => if v = unlisted then [] else [(a, v)]
  | (k, w) :: m, a, v =>
    if a < k then if v = unlisted then (k, w) :: m else (a, v) :: (k, w) :: m
    else if a = k then if v = unlisted then m else (a, v) :: m
    else (k, w) :: Memory.setCell m a v

/-- `MemRead(a, 1)` (R37). -/
def Memory.read (m : Memory) (a : Addr) : Byte := Memory.cell m a.toNat

/-- `MemWrite(a, 1, v)` (R38). -/
def Memory.write (m : Memory) (a : Addr) (v : Byte) : Memory := Memory.setCell m a.toNat v

/-- The stores of `MemWriteBytes(start, bytes)` (R39), in increasing order. -/
def Memory.writeBytes : Memory → Nat → List Byte → Memory
  | m, _, [] => m
  | m, start, b :: bs => Memory.writeBytes (Memory.setCell m start b) (start + 1) bs

/-- `Reg.read(id)` (R64): the stored byte with the forced bits high. -/
def Memory.regRead (m : Memory) (id : RegId) : Byte := Memory.read m (regAddr id) ||| forceHigh id

/-- `Reg.write(id, v)` (R65): the byte is stored whole. -/
def Memory.regWrite (m : Memory) (id : RegId) (v : Byte) : Memory := Memory.write m (regAddr id) v

/-- `CART_WINDOW` (00_scope.md R6, decision D13). -/
def cartWindow : Nat := 0x8000

/-- The memory part of `LoadCartridge()` for one answer of the cartridge source (R95, R96). -/
def Memory.load (m : Memory) : CartAnswer → Memory
  | .image bytes => Memory.writeBytes m 0 (bytes.take cartWindow)
  | .failure => m

/-- MEM after reset (70_reset_and_hazards.md R112): zeros, the cartridge, the boot image over it. Register construction
stores nothing (R68). -/
def Memory.afterReset (boot : List Byte) (cart : CartAnswer) : Memory :=
  Memory.writeBytes (Memory.load [] cart) 0 boot

/-- What device-port transactions store, in order (43_mmu_device_port.md R91, R92). -/
def Memory.afterPortOps : List PortOp → Memory → Memory
  | [], m => m
  | .get _ :: ops, m => Memory.afterPortOps ops m
  | .set id v :: ops, m => Memory.afterPortOps ops (Memory.regWrite m id v)

/-- What device-port transactions show at the interface: each value read or stored, in order (R91, R92). -/
def portEvents : List PortOp → Memory → List Event
  | [], _ => []
  | .get id :: ops, m => .portGet id (Memory.regRead m id) :: portEvents ops m
  | .set id v :: ops, m => .portSet id v :: portEvents ops (Memory.regWrite m id v)

end Sys2Proof.Machine
end

