-- ==== Sys2Proof/Machine/State.lean ====
section
/-! DEFINITION. The state of the block and its port, the reasons a step can stop, and reset (10_state.md, 60_exceptions.md R101). -/

namespace Sys2Proof.Machine

/-- The faults of R101. The hardware raises none of them (R100). -/
inductive Fault where
  /-- A bulk write past 0xFFFF, raised by `memWriteBytes` (R39). Safe; no step reaches it. -/
  | bulkOverrun
  /-- The input source answered a pair outside its contract, raised by `pressedAnswer` (R69). Safe. -/
  | inputContract
  /-- A device answered with something of another type, raised by every query and call (R106). Safe. -/
  | deviceContract
  deriving DecidableEq, Repr

/-- The refusals of R101. -/
inductive Refusal where
  /-- An instruction with no meaning in this model, raised by `exec` alone. Safe. No arm uses it. -/
  | notModelled (mnemonic : String)
  /-- A word that spells no transaction, raised by `step` (R58). Safe. -/
  | illegalEncoding (why : Illegal)
  /-- A called device issued something else than REG_GET or REG_SET, raised by every call (R119). Safe. -/
  | nestedTransaction
  deriving DecidableEq, Repr

/-- The block's state (R11: `mem` and `transcript`), and what its port holds. -/
structure State where
  /-- MEM, the registers' storage included (R12, R19). -/
  mem : Memory
  /-- TRANSCRIPT, oldest first (R13). -/
  transcript : List Byte
  /-- The read-data output of the last transaction, `none` where it returns nothing (R8, R56; log 13). -/
  readData : Option Byte
  /-- The events of all steps so far, oldest first (R8; log 14). -/
  events : List Event
  /-- The devices' answers still to come, in the order of the queries and calls (R8, D10; log 7). -/
  answers : List Answer
  /-- The model's own: how many free answers have been drawn (log 7). -/
  drawn : Nat
  /-- The parameter M_CYCLE_TICKS (R6; log 4). No step changes it. -/
  mCycleTicks : Nat
  /-- The transactions of the program, as words (R15). -/
  program : List Word
  /-- The index of the next transaction (R15). -/
  pos : Nat
  deriving DecidableEq, Repr

/-- Reset (R112, R36) for given parameters and a given answer of the cartridge source to the one query reset makes. -/
def State.resetWith (p : Config.Params) (cart : CartAnswer) : State :=
  { mem := Memory.afterReset p.bootImage cart
    transcript := []
    readData := none
    events := [.asked .cartRead]
    answers := []
    drawn := 0
    mCycleTicks := p.mCycleTicks
    program := []
    pos := 0 }

/-- The machine right after reset: no boot image (log 5), an empty cartridge (log 6), M_CYCLE_TICKS free (log 4). -/
def State.reset : State := State.resetWith Config.resetParams (.image [])

end Sys2Proof.Machine
end

