-- ==== Sys2Proof/Machine/Ops.lean ====
section
/-! DEFINITION. The named operations every meaning is written from: MEM and the registers, the interfaces to the devices, the
cartridge load. The block takes no exception and returns from none (60_exceptions.md R102), so there is no such operation. -/

namespace Sys2Proof.Machine

/-- The outcome of a part of a transaction. -/
abbrev Result (α : Type) := Host.Outcome α Fault Refusal

/-- Goes on with what a part answers; a fault or a refusal ends the transaction and changes nothing (R101). -/
def andThen {α β : Type} (r : Result α) (f : α → Result β) : Result β :=
  match r with
  | .next a => f a
  | .fault e => .fault e
  | .refused e => .refused e

/-! ## MEM and the registers -/

/-- `MEM[a]` (R37). -/
def memRead (a : Addr) (s : State) : Byte := Memory.read s.mem a

/-- `MEM[a] <- v` (R38). -/
def memWrite (a : Addr) (v : Byte) (s : State) : State := { s with mem := Memory.write s.mem a v }

/-- `MemWriteBytes(start, bytes)` (R39): past 0xFFFF it faults and changes nothing. -/
def memWriteBytes (start : Nat) (bytes : List Byte) (s : State) : Result State :=
  if start + bytes.length ≤ 0x10000 then .next { s with mem := Memory.writeBytes s.mem start bytes }
  else .fault .bulkOverrun

/-- `Reg.read(id)` (R64). -/
def regRead (id : RegId) (s : State) : Byte := Memory.regRead s.mem id

/-- `Reg.write(id, v)` (R65). -/
def regWrite (id : RegId) (v : Byte) (s : State) : State := { s with mem := Memory.regWrite s.mem id v }

/-- `if c: Reg.write(id, v)`. -/
def regWriteIf (c : Bool) (id : RegId) (v : Byte) (s : State) : State :=
  { s with mem := if c then Memory.regWrite s.mem id v else s.mem }

/-- `TRANSCRIPT <- TRANSCRIPT ++ [v]` (R86). -/
def appendTranscript (v : Byte) (s : State) : State := { s with transcript := s.transcript ++ [v] }

/-! ## Queries -/

/-- The state once the answer at hand has been used: the script moves on, or a free answer is counted. -/
def consume (s : State) : State :=
  { s with answers := s.answers.tail, drawn := s.drawn + if s.answers.isEmpty then 1 else 0 }

/-- Records an event (R8). -/
def record (e : Event) (s : State) : State := { s with events := s.events ++ [e] }

/-- The answer at hand to `getTicksSinceOverflow()`. -/
def ticksAnswer (s : State) : Result Nat :=
  match s.answers with
  | [] => .next (Config.freeTicks s.drawn)
  | .ticks t :: _ => .next t
  | _ :: _ => .fault .deviceContract

/-- The answer at hand to `isTimerEnabled()`. -/
def enabledAnswer (s : State) : Result Bool :=
  match s.answers with
  | [] => .next (Config.freeEnabled s.drawn)
  | .enabled b :: _ => .next b
  | _ :: _ => .fault .deviceContract

/-- The answer at hand to `getTickRateBit()`. -/
def rateBitAnswer (s : State) : Result Bool :=
  match s.answers with
  | [] => .next (Config.freeRateBit s.drawn)
  | .rateBit b :: _ => .next b
  | _ :: _ => .fault .deviceContract

/-- The answer at hand to `getPressedInputs()`; a pair outside the contract faults (R69, D7). -/
def pressedAnswer (s : State) : Result (List Pressed) :=
  match s.answers with
  | [] => .next ((Config.freeKeys s.drawn).map keyPressed)
  | .inputs ps :: _ => if ps.all inContract then .next ps else .fault .inputContract
  | _ :: _ => .fault .deviceContract

/-- The cartridge answer that an optional image stands for. -/
def cartOfOption : Option (List Byte) → CartAnswer
  | some bytes => .image bytes
  | none => .failure

/-- The answer at hand of the cartridge source (R94). -/
def cartAnswer (s : State) : Result CartAnswer :=
  match s.answers with
  | [] => .next (cartOfOption (Config.freeCart s.drawn))
  | .cart c :: _ => .next c
  | _ :: _ => .fault .deviceContract

/-- `ask`: a query and its answer, an input of the step (R8, R106). -/
def ask {α : Type} (q : Query) (answer : State → Result α) (s : State) : Result (α × State) :=
  andThen (answer s) fun a => .next (a, record (.asked q) (consume s))

/-! ## Calls -/

/-- The device-port transaction an instruction is, if it is one (R119). -/
def portOpOf : Instr → Option PortOp
  | .regGet id => some (.get id)
  | .regSet id v => some (.set id v)
  | _ => none

/-- The device-port transactions of a list, if they all are (R119). -/
def portOpsOf : List Instr → Option (List PortOp)
  | [] => some []
  | i :: is =>
    match portOpOf i, portOpsOf is with
    | some o, some os => some (o :: os)
    | _, _ => none

/-- What the called device issues before it returns; another transaction than REG_GET and REG_SET is refused (R119, D15). -/
def callAnswer (s : State) : Result (List PortOp) :=
  match s.answers with
  | [] => .next (Config.freePortOps s.drawn)
  | .returns txns :: _ =>
    match portOpsOf txns with
    | some ops => .next ops
    | none => .refused .nestedTransaction
  | _ :: _ => .fault .deviceContract

/-- The device-port transactions of a call, taking effect at the call point (R8, R93). -/
def runPortOps (ops : List PortOp) (s : State) : State :=
  { s with mem := Memory.afterPortOps ops s.mem, events := s.events ++ portEvents ops s.mem }

/-- `call`: an event of the step, and what the called device does before it returns (R8, R106). -/
def call (c : DeviceCall) (s : State) : Result State :=
  andThen (callAnswer s) fun ops => .next (runPortOps ops (record (.called c) (consume s)))

/-- `if b: call c` (`callIf_eq` in Laws says so). Where nothing is scripted no stop can come of it, and the outcome is
given before `b` is looked at. -/
def callIf (b : Bool) (c : DeviceCall) (s : State) : Result State :=
  match s.answers with
  | [] =>
    let ops := Config.freePortOps s.drawn
    .next { s with
      mem := if b then Memory.afterPortOps ops s.mem else s.mem
      events := if b then s.events ++ [.called c] ++ portEvents ops s.mem else s.events
      drawn := if b then s.drawn + 1 else s.drawn }
  | _ :: _ => if b then call c s else .next s

/-! ## The cartridge loader -/

/-- `LoadCartridge()` (44_cartridge_boot.md R95, R96). Its bulk write stays below 0x8000, so the fault of
`memWriteBytes` cannot arise (`memWriteBytes_load` in Laws). -/
def loadCartridge (s : State) : Result State :=
  andThen (ask .cartRead cartAnswer s) fun (cart, s) => .next { s with mem := Memory.load s.mem cart }

/-! ## The end of a transaction, and the program -/

/-- `return v`: the read-data output (R8). -/
def returnByte (v : Byte) (s : State) : Result State := .next { s with readData := some v }

/-- The end of a transaction that returns nothing (R56). -/
def returnNone (s : State) : Result State := .next { s with readData := none }

/-- The next transaction word of the program (R15). -/
def nextWord (s : State) : Option Word := s.program[s.pos]?

/-- The position after a transaction (R15). -/
def advance (s : State) : State := { s with pos := s.pos + 1 }

/-- The program with a word placed at an index, filled up with zero words below it where the program is shorter. -/
def placeWord (program : List Word) (pos : Nat) (w : Word) : List Word :=
  (program.take pos ++ List.replicate (pos - program.length) 0) ++ w :: program.drop (pos + 1)

end Sys2Proof.Machine
end

