-- ==== Sys2Proof/Machine/Operands.lean ====
section
/-! DEFINITION. The values the block builds from operands and stored bytes (30_encoding.md R55, 41_register_quirks.md). -/

namespace Sys2Proof.Machine

/-- `(old & ~mask) | (v & mask)`: only the masked bits are replaced (R70, R79). -/
def mergeBits (mask old v : Byte) : Byte := (old &&& ~~~mask) ||| (v &&& mask)

/-- The bits of JOYP a bus write can change (R70). -/
def joypSelectMask : Byte := 0x30

/-- The bits of STAT a bus write can change (R79). -/
def statConfigMask : Byte := 0x78

/-- The active-low report of R69: `s` is the plain read of JOYP; a pressed input of a selected group reads 0. PRESUMED: a
select bit at 0 selects its group (D7, log 15). -/
def joypReport (s : Byte) (pressed : List Pressed) : Byte :=
  pressed.foldl (fun r p => if s &&& p.sel = 0 then r &&& ~~~p.prs else r) (s ||| 0x0F)

/-- The DMA source base `zext_16(v) << 8` (R81). -/
def dmaSource (v : Byte) : Addr := v.setWidth 16 <<< 8

/-- `ECHO_OFF` (00_scope.md R6). -/
def echoOffset : Addr := 0x2000

end Sys2Proof.Machine
end

