-- ==== Sys2Proof/Machine/Flags.lean ====
section
/-! DEFINITION. The one-bit conditions of the rules. The block has no status flags (10_state.md R16); the only one-bit status it
keeps is the boot latch. -/

namespace Sys2Proof.Machine

/-- The boot latch: "set" exactly when `Reg.read(BOOT_ROM_DISABLE) = 0x01` (R16, R33). -/
def latchSet (s : State) : Bool := regRead .BOOT_ROM_DISABLE s == 0x01

/-- The timer window `W(t)` of R9, for TIMA, TMA and IF alike (D9, log 16). -/
def inWindow (s : State) (t : Nat) : Bool := decide (t < s.mCycleTicks)

/-- The effective tick-rate signal: enabled AND the selected-rate bit (R75). -/
def tickSignal (enabled rateBit : Bool) : Bool := enabled && rateBit

/-- A falling edge (R75). -/
def fallingEdge (before after : Bool) : Bool := before && !after

/-- The transition of the top two bits of LCDC from "any set" to "none set" (R78). -/
def displayTurnedOff (old v : Byte) : Bool := (old &&& 0xC0 != 0) && (v &&& 0xC0 == 0)

/-- A DMA trigger value at most `DMA_MAX` (R81). -/
def dmaAccepted (v : Byte) : Bool := decide (v.toNat ≤ 0xF1)

/-- The transition of the boot latch from "not set" to exactly 0x01 (R82). -/
def latchTransition (s : State) (v : Byte) : Bool := !latchSet s && v == 0x01

end Sys2Proof.Machine
end

