-- ==== Sys2Proof/Machine/RegisterQuirks.lean ====
section
/-! DEFINITION. The controlled read and write of each register (40_register_storage.md R66, R67; 41_register_quirks.md). -/

namespace Sys2Proof.Machine

/-- `Reg.cRead(JOYP)` (R69). -/
def cReadJoyp (s : State) : Result (Byte × State) :=
  andThen (ask .getPressedInputs pressedAnswer s) fun (pressed, t) =>
    .next (joypReport (regRead .JOYP s) pressed, t)

/-- `Reg.cRead(id)`: JOYP overrides it, every other register reads plainly (R66, R69). -/
def cRead (id : RegId) (s : State) : Result (Byte × State) :=
  if id = .JOYP then cReadJoyp s else .next (regRead id s, s)

/-- R70: only the two select bits change. -/
def cWriteJoyp (v : Byte) (s : State) : Result State :=
  .next (regWrite .JOYP (mergeBits joypSelectMask (regRead .JOYP s) v) s)

/-- R71 and R72: the timer's check first, then both halves zeroed; the written value has no effect. -/
def cWriteDivider (s : State) : Result State :=
  andThen (call .checkTIMAUnexpectedIncrease s) fun s =>
    .next (regWrite .DIVLSB 0x00 (regWrite .DIV 0x00 s))

/-- R73: kept inside the timer window, dropped outside. -/
def cWriteTima (v : Byte) (s : State) : Result State :=
  andThen (ask .getTicksSinceOverflow ticksAnswer s) fun (t, s) =>
    callIf (inWindow s t) .unsetOverflow (regWriteIf (inWindow s t) .TIMA v s)

/-- R74: stored, and inside the window the live counter is forced. -/
def cWriteTma (v : Byte) (s : State) : Result State :=
  andThen (ask .getTicksSinceOverflow ticksAnswer (regWrite .TMA v s)) fun (t, s) =>
    callIf (inWindow s t) (.setTIMA v) s

/-- The effective tick-rate signal, both queries asked (R75, R116). -/
def sampleTickSignal (s : State) : Result (Bool × State) :=
  andThen (ask .isTimerEnabled enabledAnswer s) fun (enabled, s) =>
    andThen (ask .getTickRateBit rateBitAnswer s) fun (rateBit, s) =>
      .next (tickSignal enabled rateBit, s)

/-- R75: a falling edge of the tick-rate signal across the store makes the timer's check. -/
def cWriteTac (v : Byte) (s : State) : Result State :=
  andThen (sampleTickSignal s) fun (before, s) =>
    andThen (sampleTickSignal (regWrite .TAC v s)) fun (after, s) =>
      callIf (fallingEdge before after) .checkTIMAUnexpectedIncrease s

/-- R76: stored, and inside the window the timer is told to override the interrupt flag. -/
def cWriteIf (v : Byte) (s : State) : Result State :=
  andThen (ask .getTicksSinceOverflow ticksAnswer (regWrite .IF v s)) fun (t, s) =>
    callIf (inWindow s t) .setIFOverride s

/-- R78: turning the display bits off resets the video device and clears the surface; the store comes last. -/
def cWriteLcdc (v : Byte) (s : State) : Result State :=
  let off := displayTurnedOff (regRead .LCDC s) v
  andThen (callIf off .videoReset s) fun s =>
    andThen (callIf off .surfaceClear s) fun s =>
      .next (regWrite .LCDC v s)

/-- R79: only the bits of mask 0x78 change. -/
def cWriteStat (v : Byte) (s : State) : Result State :=
  .next (regWrite .STAT (mergeBits statConfigMask (regRead .STAT s) v) s)

/-- R67, the default: a plain write (IE by R77, the plain registers by R80). -/
def cWriteDefault (id : RegId) (v : Byte) (s : State) : Result State := .next (regWrite id v s)

/-- R81: a value up to 0xF1 is stored and starts a transfer; a larger one does nothing. -/
def cWriteDma (v : Byte) (s : State) : Result State :=
  if dmaAccepted v then call (.startTransfer (dmaSource v)) (regWrite .DMA v s) else .next s

/-- R82: the one-way latch; its transition stores 0x01 and reloads the cartridge. -/
def cWriteBootRomDisable (v : Byte) (s : State) : Result State :=
  if latchTransition s v then loadCartridge (regWrite .BOOT_ROM_DISABLE 0x01 s) else .next s

/-- `Reg.cWrite(id, v)` (R87). -/
def cWrite (id : RegId) (v : Byte) (s : State) : Result State :=
  match id with
  | .JOYP => cWriteJoyp v s
  | .DIV => cWriteDivider s
  | .DIVLSB => cWriteDivider s
  | .TIMA => cWriteTima v s
  | .TMA => cWriteTma v s
  | .TAC => cWriteTac v s
  | .IF => cWriteIf v s
  | .IE => cWriteDefault .IE v s
  | .LCDC => cWriteLcdc v s
  | .STAT => cWriteStat v s
  | .SCY => cWriteDefault .SCY v s
  | .SCX => cWriteDefault .SCX v s
  | .LY => cWriteDefault .LY v s
  | .LYC => cWriteDefault .LYC v s
  | .BGP => cWriteDefault .BGP v s
  | .OBP0 => cWriteDefault .OBP0 v s
  | .OBP1 => cWriteDefault .OBP1 v s
  | .DMA => cWriteDma v s
  | .BOOT_ROM_DISABLE => cWriteBootRomDisable v s

end Sys2Proof.Machine
end

