-- ==== Sys2Proof/Machine/Bus.lean ====
section
/-! DEFINITION. The bus operations of the MMU as the source orders their steps (42_mmu_bus.md R83, R84). -/

namespace Sys2Proof.Machine

/-- `readByte(address)` (R83). -/
def busReadByte (addr : Addr) (s : State) : Result (Byte × State) :=
  match regAt addr with
  | some id => cRead id s
  | none => .next (memRead addr s, s)

/-- Step 4 of R84: the plain store, mirrored in the echo ranges (R88, R89, R90). -/
def busStore (addr : Addr) (v : Byte) (s : State) : State :=
  let s := memWrite addr v s
  if inEchoA addr then memWrite (addr + echoOffset) v s
  else if inEchoB addr then memWrite (addr - echoOffset) v s
  else s

/-- Steps 3 and 4 of R84: register dispatch, otherwise the store. -/
def busWriteFromDispatch (addr : Addr) (v : Byte) (s : State) : Result State :=
  match regAt addr with
  | some id => cWrite id v s
  | none => .next (busStore addr v s)

/-- `writeByte(address, value)` (R84). -/
def busWriteByte (addr : Addr) (v : Byte) (s : State) : Result State :=
  if inRom addr then .next s
  else busWriteFromDispatch addr v (if addr = serialAddr then appendTranscript v s else s)

end Sys2Proof.Machine
end

