-- ==== Sys2Proof/Machine/BusRead.lean ====
section
/-! DEFINITION. The meanings of the `BUS_RD` rows (42_mmu_bus.md R83). -/

namespace Sys2Proof.Machine

/-- A read of a register with the default controlled read (40_register_storage.md R66). -/
def readRegister (id : RegId) (s : State) : Result State := returnByte (regRead id s) s

/-- R83, no register bound: `MemRead(addr, 1)`. -/
def execBusRdMem (addr : Addr) (s : State) : Result State := returnByte (memRead addr s) s

/-- R69. -/
def execBusRdJoyp (s : State) : Result State := andThen (cReadJoyp s) fun (v, s) => returnByte v s

/-- R66, DIV. -/
def execBusRdDiv (s : State) : Result State := readRegister .DIV s

/-- R66, DIVLSB. -/
def execBusRdDivlsb (s : State) : Result State := readRegister .DIVLSB s

/-- R66, TIMA. -/
def execBusRdTima (s : State) : Result State := readRegister .TIMA s

/-- R66, TMA. -/
def execBusRdTma (s : State) : Result State := readRegister .TMA s

/-- R66, TAC. -/
def execBusRdTac (s : State) : Result State := readRegister .TAC s

/-- R66, IF. -/
def execBusRdIf (s : State) : Result State := readRegister .IF s

/-- R66, IE. -/
def execBusRdIe (s : State) : Result State := readRegister .IE s

/-- R66, LCDC. -/
def execBusRdLcdc (s : State) : Result State := readRegister .LCDC s

/-- R66, STAT. -/
def execBusRdStat (s : State) : Result State := readRegister .STAT s

/-- R66, SCY. -/
def execBusRdScy (s : State) : Result State := readRegister .SCY s

/-- R66, SCX. -/
def execBusRdScx (s : State) : Result State := readRegister .SCX s

/-- R66, LY. -/
def execBusRdLy (s : State) : Result State := readRegister .LY s

/-- R66, LYC. -/
def execBusRdLyc (s : State) : Result State := readRegister .LYC s

/-- R66, BGP. -/
def execBusRdBgp (s : State) : Result State := readRegister .BGP s

/-- R66, OBP0. -/
def execBusRdObp0 (s : State) : Result State := readRegister .OBP0 s

/-- R66, OBP1. -/
def execBusRdObp1 (s : State) : Result State := readRegister .OBP1 s

/-- R66, DMA. -/
def execBusRdDma (s : State) : Result State := readRegister .DMA s

/-- R66, BOOT_ROM_DISABLE. -/
def execBusRdBootRomDisable (s : State) : Result State := readRegister .BOOT_ROM_DISABLE s

end Sys2Proof.Machine
end

