-- ==== Sys2Proof/Machine/BusWrite.lean ====
section
/-! DEFINITION. The meanings of the `BUS_WR` rows (42_mmu_bus.md R84). -/

namespace Sys2Proof.Machine

/-- R85: dropped, "not an error condition". -/
def execBusWrRom (_addr : Addr) (_v : Byte) (s : State) : Result State := returnNone s

/-- R86: the transcript grows, then the write continues at step 3. -/
def execBusWrSerial (v : Byte) (s : State) : Result State :=
  andThen (busWriteFromDispatch serialAddr v (appendTranscript v s)) returnNone

/-- R70. -/
def execBusWrJoyp (v : Byte) (s : State) : Result State := andThen (cWriteJoyp v s) returnNone

/-- R71. -/
def execBusWrDiv (_v : Byte) (s : State) : Result State := andThen (cWriteDivider s) returnNone

/-- R72. -/
def execBusWrDivlsb (_v : Byte) (s : State) : Result State := andThen (cWriteDivider s) returnNone

/-- R73. -/
def execBusWrTima (v : Byte) (s : State) : Result State := andThen (cWriteTima v s) returnNone

/-- R74. -/
def execBusWrTma (v : Byte) (s : State) : Result State := andThen (cWriteTma v s) returnNone

/-- R75. -/
def execBusWrTac (v : Byte) (s : State) : Result State := andThen (cWriteTac v s) returnNone

/-- R76. -/
def execBusWrIf (v : Byte) (s : State) : Result State := andThen (cWriteIf v s) returnNone

/-- R77. -/
def execBusWrIe (v : Byte) (s : State) : Result State := andThen (cWriteDefault .IE v s) returnNone

/-- R78. -/
def execBusWrLcdc (v : Byte) (s : State) : Result State := andThen (cWriteLcdc v s) returnNone

/-- R79. -/
def execBusWrStat (v : Byte) (s : State) : Result State := andThen (cWriteStat v s) returnNone

/-- R80. -/
def execBusWrScy (v : Byte) (s : State) : Result State := andThen (cWriteDefault .SCY v s) returnNone

/-- R80. -/
def execBusWrScx (v : Byte) (s : State) : Result State := andThen (cWriteDefault .SCX v s) returnNone

/-- R80. -/
def execBusWrLy (v : Byte) (s : State) : Result State := andThen (cWriteDefault .LY v s) returnNone

/-- R80. -/
def execBusWrLyc (v : Byte) (s : State) : Result State := andThen (cWriteDefault .LYC v s) returnNone

/-- R80. -/
def execBusWrBgp (v : Byte) (s : State) : Result State := andThen (cWriteDefault .BGP v s) returnNone

/-- R80. -/
def execBusWrObp0 (v : Byte) (s : State) : Result State := andThen (cWriteDefault .OBP0 v s) returnNone

/-- R80. -/
def execBusWrObp1 (v : Byte) (s : State) : Result State := andThen (cWriteDefault .OBP1 v s) returnNone

/-- R81. -/
def execBusWrDma (v : Byte) (s : State) : Result State := andThen (cWriteDma v s) returnNone

/-- R82. -/
def execBusWrBootRomDisable (v : Byte) (s : State) : Result State := andThen (cWriteBootRomDisable v s) returnNone

/-- R89: stored and mirrored at `addr + 0x2000`. -/
def execBusWrEchoA (addr : Addr) (v : Byte) (s : State) : Result State :=
  returnNone (memWrite (addr + echoOffset) v (memWrite addr v s))

/-- R90: stored and mirrored at `addr - 0x2000`. -/
def execBusWrEchoB (addr : Addr) (v : Byte) (s : State) : Result State :=
  returnNone (memWrite (addr - echoOffset) v (memWrite addr v s))

/-- R88: stored. -/
def execBusWrPlain (addr : Addr) (v : Byte) (s : State) : Result State := returnNone (memWrite addr v s)

end Sys2Proof.Machine
end

