-- ==== Sys2Proof/Machine/Cartridge.lean ====
section
/-! DEFINITION. The meaning of the cartridge load (44_cartridge_boot.md R97). -/

namespace Sys2Proof.Machine

/-- R97: `LoadCartridge()`; the boot latch is neither read nor changed. -/
def execLoadCart (s : State) : Result State := andThen (loadCartridge s) returnNone

end Sys2Proof.Machine
end

