-- ==== Sys2Proof/Machine/DevicePort.lean ====
section
/-! DEFINITION. The meanings of the device-port transactions (43_mmu_device_port.md). -/

namespace Sys2Proof.Machine

/-- R91: the plain read; no quirk, no query. -/
def execRegGet (id : RegId) (s : State) : Result State := returnByte (regRead id s) s

/-- R92: the plain write; it bypasses every bus-level step. -/
def execRegSet (id : RegId) (v : Byte) (s : State) : Result State := returnNone (regWrite id v s)

end Sys2Proof.Machine
end

