-- ==== Sys2Proof/Machine/Dispatch.lean ====
section
/-! DEFINITION. One arm per transaction. -/

namespace Sys2Proof.Machine

def exec (i : Instr) (s : State) : Host.Outcome State Fault Refusal :=
  match i with
  | .busRdMem addr => Sys2Proof.Machine.execBusRdMem addr s
  | .busRdJoyp => Sys2Proof.Machine.execBusRdJoyp s
  | .busRdDiv => Sys2Proof.Machine.execBusRdDiv s
  | .busRdDivlsb => Sys2Proof.Machine.execBusRdDivlsb s
  | .busRdTima => Sys2Proof.Machine.execBusRdTima s
  | .busRdTma => Sys2Proof.Machine.execBusRdTma s
  | .busRdTac => Sys2Proof.Machine.execBusRdTac s
  | .busRdIf => Sys2Proof.Machine.execBusRdIf s
  | .busRdIe => Sys2Proof.Machine.execBusRdIe s
  | .busRdLcdc => Sys2Proof.Machine.execBusRdLcdc s
  | .busRdStat => Sys2Proof.Machine.execBusRdStat s
  | .busRdScy => Sys2Proof.Machine.execBusRdScy s
  | .busRdScx => Sys2Proof.Machine.execBusRdScx s
  | .busRdLy => Sys2Proof.Machine.execBusRdLy s
  | .busRdLyc => Sys2Proof.Machine.execBusRdLyc s
  | .busRdBgp => Sys2Proof.Machine.execBusRdBgp s
  | .busRdObp0 => Sys2Proof.Machine.execBusRdObp0 s
  | .busRdObp1 => Sys2Proof.Machine.execBusRdObp1 s
  | .busRdDma => Sys2Proof.Machine.execBusRdDma s
  | .busRdBootRomDisable => Sys2Proof.Machine.execBusRdBootRomDisable s
  | .busWrRom addr v => Sys2Proof.Machine.execBusWrRom addr v s
  | .busWrSerial v => Sys2Proof.Machine.execBusWrSerial v s
  | .busWrJoyp v => Sys2Proof.Machine.execBusWrJoyp v s
  | .busWrDiv v => Sys2Proof.Machine.execBusWrDiv v s
  | .busWrDivlsb v => Sys2Proof.Machine.execBusWrDivlsb v s
  | .busWrTima v => Sys2Proof.Machine.execBusWrTima v s
  | .busWrTma v => Sys2Proof.Machine.execBusWrTma v s
  | .busWrTac v => Sys2Proof.Machine.execBusWrTac v s
  | .busWrIf v => Sys2Proof.Machine.execBusWrIf v s
  | .busWrIe v => Sys2Proof.Machine.execBusWrIe v s
  | .busWrLcdc v => Sys2Proof.Machine.execBusWrLcdc v s
  | .busWrStat v => Sys2Proof.Machine.execBusWrStat v s
  | .busWrScy v => Sys2Proof.Machine.execBusWrScy v s
  | .busWrScx v => Sys2Proof.Machine.execBusWrScx v s
  | .busWrLy v => Sys2Proof.Machine.execBusWrLy v s
  | .busWrLyc v => Sys2Proof.Machine.execBusWrLyc v s
  | .busWrBgp v => Sys2Proof.Machine.execBusWrBgp v s
  | .busWrObp0 v => Sys2Proof.Machine.execBusWrObp0 v s
  | .busWrObp1 v => Sys2Proof.Machine.execBusWrObp1 v s
  | .busWrDma v => Sys2Proof.Machine.execBusWrDma v s
  | .busWrBootRomDisable v => Sys2Proof.Machine.execBusWrBootRomDisable v s
  | .busWrEchoA addr v => Sys2Proof.Machine.execBusWrEchoA addr v s
  | .busWrEchoB addr v => Sys2Proof.Machine.execBusWrEchoB addr v s
  | .busWrPlain addr v => Sys2Proof.Machine.execBusWrPlain addr v s
  | .regGet id => Sys2Proof.Machine.execRegGet id s
  | .regSet id v => Sys2Proof.Machine.execRegSet id v s
  | .loadCart => Sys2Proof.Machine.execLoadCart s

end Sys2Proof.Machine
end

