-- ==== Sys2Proof/Machine/Step.lean ====
section
/-! DEFINITION. One step: the next transaction of the program (10_state.md R15, 70_reset_and_hazards.md R124). -/

namespace Sys2Proof.Machine

/-- One transaction (R47, R50). A word that spells none is refused (R58). With no transaction pending the block does
nothing: "it acts only when a transaction arrives" (60_exceptions.md R111; log 12). -/
def step (s : State) : Host.Outcome State Fault Refusal :=
  match nextWord s with
  | none => .next s
  | some w =>
    match decode w with
    | .error why => .refused (.illegalEncoding why)
    | .ok i => andThen (exec i s) fun t => .next (advance t)

/-- The state with a word placed as the next transaction of the program (log 12). Bits at and above `nbits` are 0. -/
def State.withFetchWord (s : State) (nbits w : Nat) : State :=
  { s with program := placeWord s.program s.pos (BitVec.ofNat 32 (w % 2 ^ nbits)) }

end Sys2Proof.Machine
end

