-- ==== Sys2Proof/Safety.lean ====
section
/-! DEFINITION. The terms the claims are stated in. -/

namespace Sys2Proof.Machine

/-- The echo invariant of a memory: two sets of cells kept equal (20_memory.md R43, 90_conflicts.md C1). -/
def EchoOk (m : Memory) : Prop :=
  ∀ a : Addr, inEchoA a = true → Memory.read m (a + echoOffset) = Memory.read m a

/-- What every state a run reaches satisfies: MEM in canonical form, the echo invariant (R43), and M_CYCLE_TICKS
positive (00_scope.md R6, D8). -/
structure Inv (s : State) : Prop where
  wf : Memory.wf s.mem = true
  echo : EchoOk s.mem
  ticks : 0 < s.mCycleTicks

/-- The state after `n` answers have been used and nothing else has happened. -/
def consumed : Nat → State → State
  | 0, s => s
  | n + 1, s => consumed n (consume s)

/-- The transaction a device-port access is (R91, R92). -/
def instrOf : PortOp → Instr
  | .get id => .regGet id
  | .set id v => .regSet id v

/-- The value the last `REG_SET` of a list of device-port transactions stores at an address, if one does (R92). -/
def lastSet : List PortOp → Addr → Option Byte
  | [], _ => none
  | .get _ :: ops, a => lastSet ops a
  | .set id v :: ops, a =>
    match lastSet ops a with
    | some w => some w
    | none => if a = regAddr id then some v else none

/-- What the cell at `a` holds after device-port transactions, when it held `old` before them. -/
def setBy (ops : List PortOp) (a : Addr) (old : Byte) : Byte := (lastSet ops a).getD old

/-- The cell at `a` after a cartridge load, when it held `old` before it (44_cartridge_boot.md R95, R96). -/
def loadedCell (cart : CartAnswer) (a : Addr) (old : Byte) : Byte :=
  match cart with
  | .failure => old
  | .image bytes => if a.toNat < 0x8000 then (bytes[a.toNat]?).getD old else old

/-- What one transaction leaves, all of it: `used` answers taken, `rd` on the read-data output, `tr` appended to the
transcript, `es` appended to the events, the cells of MEM as `cells` says, and nothing else changed. That the output is empty after a
transaction that returns nothing is the model's choice (log 13). -/
structure After (s u : State) (used : Nat) (rd : Option Byte) (tr : List Byte) (es : List Event)
    (cells : Addr → Byte) : Prop where
  mem : ∀ a, memRead a u = cells a
  transcript : u.transcript = s.transcript ++ tr
  readData : u.readData = rd
  events : u.events = s.events ++ es
  answers : u.answers = s.answers.drop used
  drawn : u.drawn = s.drawn + (used - s.answers.length)
  mCycleTicks : u.mCycleTicks = s.mCycleTicks
  program : u.program = s.program
  pos : u.pos = s.pos

/-- The transactions that read and store nothing. -/
def isRead : Instr → Bool
  | .busRdMem _ | .busRdJoyp | .busRdDiv | .busRdDivlsb | .busRdTima | .busRdTma | .busRdTac
  | .busRdIf | .busRdIe | .busRdLcdc | .busRdStat | .busRdScy | .busRdScx | .busRdLy | .busRdLyc
  | .busRdBgp | .busRdObp0 | .busRdObp1 | .busRdDma | .busRdBootRomDisable | .regGet _ => true
  | .busWrRom _ _ | .busWrSerial _ | .busWrJoyp _ | .busWrDiv _ | .busWrDivlsb _ | .busWrTima _
  | .busWrTma _ | .busWrTac _ | .busWrIf _ | .busWrIe _ | .busWrLcdc _ | .busWrStat _
  | .busWrScy _ | .busWrScx _ | .busWrLy _ | .busWrLyc _ | .busWrBgp _ | .busWrObp0 _
  | .busWrObp1 _ | .busWrDma _ | .busWrBootRomDisable _ | .busWrEchoA _ _ | .busWrEchoB _ _
  | .busWrPlain _ _ | .regSet _ _ | .loadCart => false

/-- The device an event concerns; a device-port access concerns none. -/
def eventDevice : Event → Option Device
  | .asked q => some (queryDevice q)
  | .called c => some (callDevice c)
  | .portGet _ _ | .portSet _ _ => none

/-- The registers whose controlled read and write are the defaults (R77, R80). -/
def defaultRegs : List RegId := [.IE, .SCY, .SCX, .LY, .LYC, .BGP, .OBP0, .OBP1]

end Sys2Proof.Machine
end

