-- ==== Sys2Proof/Certificates/Slice0/Obligations.lean ====
section
/-! DEFINITION. The statements. `After` (Safety.lean) says everything a transaction leaves, so each result statement below
states the frame too. Two of the spec's own decisions run through them: the answers of the devices are inputs (D10, log 7), and
a called device may issue device-port transactions before it returns (D15); the transaction word itself is D16. Where `After` says that no read data
is left (`none`), that is the model's choice (log 13). -/

open Sys2Proof Sys2Proof.Machine

/-! ## Encoding -/

/-- The words of 95_test_vectors.md section 2.1, and one of each other family, decode to what they stand for. The register
and serial addresses in them are the defaults (log 1, log 2). -/
def Obligations.SampleWordsDecodeAsSpecified : Prop :=
  decode 0x10FF0000#32 = .ok .busRdJoyp ∧
  decode 0x10010000#32 = .ok (.busRdMem 0x0100) ∧
  decode 0x20C00042#32 = .ok (.busWrEchoA 0xC000 0x42) ∧
  decode 0x20FD0022#32 = .ok (.busWrEchoB 0xFD00 0x22) ∧
  decode 0x20DE0033#32 = .ok (.busWrPlain 0xDE00 0x33) ∧
  decode 0x2000FFFF#32 = .ok (.busWrRom 0x00FF 0xFF) ∧
  decode 0x20FF0148#32 = .ok (.busWrSerial 0x48) ∧
  decode 0x20FF4091#32 = .ok (.busWrLcdc 0x91) ∧
  decode 0x30001200#32 = .ok (.regGet .BOOT_ROM_DISABLE) ∧
  decode 0x40000C90#32 = .ok (.regSet .LY 0x90) ∧
  decode 0x50000000#32 = .ok .loadCart ∧
  decode 0x00000000#32 = .error .reservedOp ∧
  decode 0x60000000#32 = .error .reservedOp ∧
  decode 0x11000000#32 = .error .rsvNotZero ∧
  decode 0x10FF0001#32 = .error .dataNotZero ∧
  decode 0x30001300#32 = .error .noSuchRegister ∧
  decode 0x40002000#32 = .error .rsv2NotZero ∧
  decode 0x50000001#32 = .error .loadBitsNotZero

/-- Decoding the word of a well-formed transaction gives the transaction back (R54 to R57, R60, R61). -/
def Obligations.DecodeOfEncodeIsIdentity : Prop :=
  ∀ i : Instr, wellFormed i = true → decode (encode i) = .ok i

/-- A word that decodes is the word of the well-formed transaction it decodes to: no two words spell one transaction. -/
def Obligations.EncodeOfDecodeIsIdentity : Prop :=
  ∀ (w : Word) (i : Instr), decode w = .ok i → wellFormed i = true ∧ encode i = w

/-- R58: the words that spell no transaction, by the bits of the word (decisions D16, D18). -/
def Obligations.IllegalWordsAreThoseOfTheRule : Prop :=
  ∀ w : Word,
    (∃ why, decode w = .error why) ↔
      let op := w.toNat / 2 ^ 28
      let rsv := w.toNat / 2 ^ 24 % 16
      let rsv2 := w.toNat / 2 ^ 13 % 2 ^ 11
      let id := w.toNat / 2 ^ 8 % 32
      let data := w.toNat % 256
      op = 0 ∨ 6 ≤ op ∨ rsv ≠ 0 ∨
        (op = 1 ∧ data ≠ 0) ∨
        (op = 3 ∧ (rsv2 ≠ 0 ∨ 19 ≤ id ∨ data ≠ 0)) ∨
        (op = 4 ∧ (rsv2 ≠ 0 ∨ 19 ≤ id)) ∨
        (op = 5 ∧ w.toNat % 2 ^ 24 ≠ 0)

/-- The word R59 writes for an assembler line decodes to the line's transaction. -/
def Obligations.AssemblerWordsDecodeToTheirLines : Prop :=
  (∀ a, decode (assemble (.rd a)) = .ok (decodeRead a)) ∧
  (∀ a v, decode (assemble (.wr a v)) = .ok (decodeWrite a v)) ∧
  (∀ id, decode (assemble (.get id)) = .ok (.regGet id)) ∧
  (∀ id v, decode (assemble (.set id v)) = .ok (.regSet id v)) ∧
  decode (assemble .load) = .ok .loadCart

/-- The rows of R60, R61 and R41, by address; the clauses exclude each other because every register lies at 0xFF00 or
above and none at the serial port (D33). -/
def Obligations.BusAddressesSelectTheirRows : Prop :=
  ∀ (a : Addr) (v : Byte),
    (∀ id, a = regAddr id → decodeRead a = busRdRow id ∧ decodeWrite a v = busWrRow id v) ∧
    ((∀ id, a ≠ regAddr id) → decodeRead a = .busRdMem a) ∧
    (a.toNat ≤ 0x7FFF → decodeWrite a v = .busWrRom a v) ∧
    (0x8000 ≤ a.toNat ∧ a.toNat ≤ 0xBFFF → decodeWrite a v = .busWrPlain a v) ∧
    (0xC000 ≤ a.toNat ∧ a.toNat ≤ 0xDDFF → decodeWrite a v = .busWrEchoA a v) ∧
    (0xDE00 ≤ a.toNat ∧ a.toNat ≤ 0xDFFF → decodeWrite a v = .busWrPlain a v) ∧
    (0xE000 ≤ a.toNat ∧ a.toNat ≤ 0xFDFF → decodeWrite a v = .busWrEchoB a v) ∧
    (a = serialAddr → decodeWrite a v = .busWrSerial v) ∧
    (0xFE00 ≤ a.toNat ∧ a ≠ serialAddr ∧ (∀ id, a ≠ regAddr id) → decodeWrite a v = .busWrPlain a v)

/-! ## The bus operations -/

/-- The row a bus write decodes to does what the source's `writeByte(address, value)` does (R84), for every address, value
and state, stops included.
That the output is then empty is the model's choice (log 13). -/
def Obligations.BusWriteRowsRunWriteByte : Prop :=
  ∀ (a : Addr) (v : Byte) (s : State),
    exec (decodeWrite a v) s = andThen (busWriteByte a v s) returnNone

/-- The row a bus read decodes to does what the source's `readByte(address)` does (R83).
The field that holds the read data is the model's (log 13). -/
def Obligations.BusReadRowsRunReadByte : Prop :=
  ∀ (a : Addr) (s : State),
    exec (decodeRead a) s = andThen (busReadByte a s) fun r => returnByte r.1 r.2

/-! ## A step -/

/-- A step runs the transaction its word decodes to, and then the position is the next index (R15); a word placed by
`withFetchWord` is the one it runs. -/
def Obligations.StepRunsTheDecodedTransaction : Prop :=
  (∀ (s : State) (w : Word) (i : Instr), s.program[s.pos]? = some w → decode w = .ok i →
    step s = andThen (exec i s) fun t => .next { t with pos := s.pos + 1 }) ∧
  (∀ (s : State) (w : Word) (i : Instr), decode w = .ok i →
    step (s.withFetchWord 32 w.toNat) =
      andThen (exec i (s.withFetchWord 32 w.toNat)) fun t => .next { t with pos := s.pos + 1 })

/-- A word that spells no transaction is refused (R58). That a step with no transaction pending changes nothing is the
model's choice (log 12). -/
def Obligations.StepRefusesIllegalWordsAndIdlesWithoutOne : Prop :=
  (∀ (s : State) (w : Word) (why : Illegal), s.program[s.pos]? = some w → decode w = .error why →
    step s = .refused (.illegalEncoding why)) ∧
  (∀ s : State, s.program.length ≤ s.pos → step s = .next s)

/-! ## Reset -/

/-- R112, R36: the boot image lies over the cartridge image, every other cell is 0x00, every register reads its forced bits,
the latch is not set, the transcript is empty and the cartridge was asked once. The order of the loads and the register
values are decisions D12 and D20; that `State.reset` has empty images is the model's choice (log 5, log 6). -/
def Obligations.ResetLeavesTheImagesAndZeros : Prop :=
  (∀ (p : Config.Params) (cart : CartAnswer), p.valid →
    (∀ a, memRead a (State.resetWith p cart) = (p.bootImage[a.toNat]?).getD (loadedCell cart a 0x00)) ∧
    (∀ id, memRead (regAddr id) (State.resetWith p cart) = 0x00 ∧
      regRead id (State.resetWith p cart) = forceHigh id) ∧
    latchSet (State.resetWith p cart) = false ∧
    (State.resetWith p cart).transcript = [] ∧
    (State.resetWith p cart).events = [.asked .cartRead]) ∧
  (∀ a, memRead a State.reset = 0x00)

/-- The invariant holds at reset, for every parameter within R6 and every cartridge answer. -/
def Obligations.ResetSatisfiesTheInvariant : Prop :=
  Inv State.reset ∧ ∀ (p : Config.Params) (cart : CartAnswer), p.valid → Inv (State.resetWith p cart)

/-! ## The whole machine -/

/-- R43 and the canonical form: every step keeps the echo ranges equal, MEM in canonical form and M_CYCLE_TICKS positive. -/
def Obligations.EveryStepKeepsTheInvariant : Prop :=
  ∀ s t : State, Inv s → step s = .next t → Inv t

/-- R42: a cell of 0x0000..0x7FFF changes only by LOAD_CART or by the bus write of 0x01 that sets the latch, and then to
the byte of the cartridge image at its address. -/
def Obligations.RomChangesOnlyByACartridgeLoad : Prop :=
  ∀ (s t : State) (a : Addr), Inv s → step s = .next t → a.toNat ≤ 0x7FFF → memRead a t ≠ memRead a s →
    (∃ w, s.program[s.pos]? = some w ∧
      (decode w = .ok .loadCart ∨ (decode w = .ok (.busWrBootRomDisable 0x01) ∧ latchSet s = false))) ∧
    ∃ bytes, cartAnswer s = .next (.image bytes) ∧ bytes[a.toNat]? = some (memRead a t)

/-- R13: the transcript grows by exactly the byte of a bus write to `SERIAL_ADDR` and by nothing else, and is empty at reset. -/
def Obligations.TranscriptGrowsOnlyBySerialWrites : Prop :=
  (∀ (s t : State), step s = .next t →
    t.transcript = s.transcript ++
      match s.program[s.pos]? with
      | none => []
      | some w =>
        if w.toNat / 2 ^ 24 = 0x20 ∧ w.toNat / 2 ^ 8 % 2 ^ 16 = serialAddr.toNat
        then [BitVec.ofNat 8 w.toNat] else []) ∧
  (∀ (p : Config.Params) (cart : CartAnswer), (State.resetWith p cart).transcript = [])

/-- R13 "never ... read back": what a transaction does to everything else does not depend on the transcript. -/
def Obligations.TranscriptIsNeverReadBack : Prop :=
  ∀ (i : Instr) (s u : State) (tr : List Byte), exec i s = .next u →
    ∃ tr', exec i { s with transcript := tr } = .next { u with transcript := tr' }

/-- R48: a read changes no state of the block, and only the bus read of JOYP asks a device. -/
def Obligations.ReadsChangeNoStateOfTheBlock : Prop :=
  ∀ (i : Instr) (s u : State), isRead i = true → exec i s = .next u →
    u.mem = s.mem ∧ u.transcript = s.transcript ∧ (i ≠ .busRdJoyp → u.events = s.events)

/-- R64: the masks, and every read of a register on either port returns its forced bits as 1. That the mask
is applied on the read is decision D6 (log 17). -/
def Obligations.RegisterReadsKeepForcedBitsHigh : Prop :=
  (∀ (id : RegId) (s : State), regRead id s =
    memRead (regAddr id) s |||
      (if id = .JOYP then 0xC0 else if id = .IF ∨ id = .IE then 0xE0 else if id = .STAT then 0x80 else 0x00)) ∧
  (∀ (id : RegId) (i : Instr) (s u : State), i = busRdRow id ∨ i = .regGet id → exec i s = .next u →
    ∃ v, u.readData = some v ∧ v &&& forceHigh id = forceHigh id)

/-- A step changes no configuration and no program, moves the position by one transaction, and appends events and uses
answers only (R11, R15, R116). -/
def Obligations.StepsKeepConfigurationAndProgram : Prop :=
  ∀ s t : State, step s = .next t →
    t.mCycleTicks = s.mCycleTicks ∧ t.program = s.program ∧
    t.pos = (if s.pos < s.program.length then s.pos + 1 else s.pos) ∧
    (∃ es, t.events = s.events ++ es) ∧ (∃ n, t.answers = s.answers.drop n)

/-- R18, R34: the controlled read and write of a register ask and call only the devices the register binds. -/
def Obligations.RegistersCallOnlyTheDevicesTheyBind : Prop :=
  ∀ (id : RegId) (i : Instr) (s u : State), (i = busRdRow id ∨ ∃ v, i = busWrRow id v) →
    exec i s = .next u →
    ∃ es, u.events = s.events ++ es ∧ ∀ e ∈ es, ∀ d, eventDevice e = some d → d ∈ deviceRefs id

/-- R118, and R87 "no plain store, no mirror": outside the register cells neither a device-port write nor the bus write of a
register other than the boot latch changes anything, whatever the called devices do. -/
def Obligations.RegisterWritesTouchOnlyRegisterCells : Prop :=
  ∀ (id : RegId) (v : Byte) (s u : State) (a : Addr), (∀ r, a ≠ regAddr r) →
    (exec (.regSet id v) s = .next u → memRead a u = memRead a s) ∧
    (id ≠ .BOOT_ROM_DISABLE → exec (busWrRow id v) s = .next u → memRead a u = memRead a s)

/-- R33: once set, the boot latch stays set unless the device port writes it, as a transaction or inside a call. -/
def Obligations.BootLatchIsOneWayOnTheBus : Prop :=
  ∀ (i : Instr) (s u : State), Inv s → wellFormed i = true → exec i s = .next u → latchSet s = true →
    (∀ v, i ≠ .regSet .BOOT_ROM_DISABLE v) →
    (∀ v, Event.portSet .BOOT_ROM_DISABLE v ∉ u.events.drop s.events.length) →
    latchSet u = true

/-- R100: with no scripted answer in the way, every transaction completes, in every state. The devices' answers are then
free values (log 7). That a free list of pressed inputs keeps its contract, so that busRdJoyp never faults here, is the model's
choice (log 8). -/
def Obligations.UnscriptedTransactionsAlwaysComplete : Prop :=
  ∀ (i : Instr) (s : State), s.answers = [] → ∃ u, exec i s = .next u

/-- R100, R101: a transaction stops only because of a scripted answer outside its contract; BulkOverrun never arises.
That no answer stops a transaction where the script is empty is the model's choice (log 7, and log 8 for busRdJoyp). -/
def Obligations.OnlyDeviceAnswersStopATransaction : Prop :=
  ∀ (i : Instr) (s : State),
    (∀ e, exec i s = .fault e → s.answers ≠ [] ∧ (e = .inputContract ∨ e = .deviceContract)) ∧
    (∀ e, exec i s = .refused e → s.answers ≠ [] ∧ e = .nestedTransaction)

/-! ## What each transaction leaves: reads -/

/-- R37, R66, R83: a bus read of an address with no register, and of each of the 18 registers with the default controlled
read.
The mask on the read is decision D6 (log 17). -/
def Obligations.BusReadsReturnTheCellOrMaskedRegister : Prop :=
  (∀ (a : Addr) (s : State), ∃ u, exec (.busRdMem a) s = .next u ∧
    After s u 0 (some (memRead a s)) [] [] fun b => memRead b s) ∧
  (∀ (id : RegId) (s : State), id ≠ .JOYP → ∃ u, exec (busRdRow id) s = .next u ∧
    After s u 0 (some (memRead (regAddr id) s ||| forceHigh id)) [] [] fun b => memRead b s)

/-- R69 bit by bit: bits 7:6 read 1, bits 5:4 read the stored select bits, a report bit reads 0 exactly when a pressed input
of a selected group has it. That a select bit at 0 selects is decision D7 (log 15). -/
def Obligations.JoypReadReportsPressedInputsOfSelectedGroups : Prop :=
  ∀ (s : State) (ps : List Pressed), pressedAnswer s = .next ps →
    ∃ u v, exec .busRdJoyp s = .next u ∧
      (After s u 1 (some v) [] [.asked .getPressedInputs] fun a => memRead a s) ∧
      (v.getLsbD 7 = true ∧ v.getLsbD 6 = true) ∧
      (v.getLsbD 5 = (memRead (regAddr .JOYP) s).getLsbD 5 ∧
        v.getLsbD 4 = (memRead (regAddr .JOYP) s).getLsbD 4) ∧
      ∀ k < 4, (v.getLsbD k = false ↔
        ∃ p ∈ ps, memRead (regAddr .JOYP) s &&& p.sel = 0 ∧ p.prs = BitVec.ofNat 8 (2 ^ k))

/-- R91: the device port reads plainly and asks no device. -/
def Obligations.RegGetReturnsTheMaskedRegister : Prop :=
  ∀ (id : RegId) (s : State), ∃ u, exec (.regGet id) s = .next u ∧
    After s u 0 (some (memRead (regAddr id) s ||| forceHigh id)) [] [] fun b => memRead b s

/-! ## What each transaction leaves: writes outside the registers -/

/-- R85.
That no read data is left is the model's choice (log 13). -/
def Obligations.RomWritesAreDropped : Prop :=
  ∀ (a : Addr) (v : Byte) (s : State), a.toNat ≤ 0x7FFF →
    ∃ u, exec (.busWrRom a v) s = .next u ∧ After s u 0 none [] [] fun b => memRead b s

/-- R86: the transcript grows by the written byte itself (decision D19) and the byte is stored.
That no read data is left is the model's choice (log 13). -/
def Obligations.SerialWritesAppendAndStore : Prop :=
  ∀ (v : Byte) (s : State), Inv s →
    ∃ u, exec (.busWrSerial v) s = .next u ∧
      After s u 0 none [v] [] fun b => if b = serialAddr then v else memRead b s

/-- R89, R90: the store and its mirror at 0x2000 above or below.
That no read data is left is the model's choice (log 13). -/
def Obligations.EchoWritesAreMirrored : Prop :=
  (∀ (a : Addr) (v : Byte) (s : State), Inv s → 0xC000 ≤ a.toNat ∧ a.toNat ≤ 0xDDFF →
    ∃ u, exec (.busWrEchoA a v) s = .next u ∧
      After s u 0 none [] [] fun b =>
        if b.toNat = a.toNat ∨ b.toNat = a.toNat + 0x2000 then v else memRead b s) ∧
  (∀ (a : Addr) (v : Byte) (s : State), Inv s → 0xE000 ≤ a.toNat ∧ a.toNat ≤ 0xFDFF →
    ∃ u, exec (.busWrEchoB a v) s = .next u ∧
      After s u 0 none [] [] fun b =>
        if b.toNat = a.toNat ∨ b.toNat = a.toNat - 0x2000 then v else memRead b s)

/-- R88 at a plain address: the store and nothing else.
That an address without one of the 19 registers is plain storage is decision D5 (log 3), and that no read data is left is
the model's choice (log 13). -/
def Obligations.PlainWritesStoreOneCell : Prop :=
  ∀ (a : Addr) (v : Byte) (s : State), Inv s → wellFormed (.busWrPlain a v) = true →
    ∃ u, exec (.busWrPlain a v) s = .next u ∧
      After s u 0 none [] [] fun b => if b = a then v else memRead b s

/-! ## What each transaction leaves: the registers on the bus -/

/-- R70: only the select bits change; the other stored bits are those of the plain read, so that bits 7:6 are stored as 1
(decision D24, log 17).
That no read data is left is the model's choice (log 13). -/
def Obligations.JoypWriteChangesOnlyTheSelectBits : Prop :=
  ∀ (v : Byte) (s : State), Inv s →
    ∃ u, exec (.busWrJoyp v) s = .next u ∧
      After s u 0 none [] [] fun a =>
        if a = regAddr .JOYP then ((memRead a s ||| 0xC0) &&& 0xCF) ||| (v &&& 0x30) else memRead a s

/-- R71, R72: a write of any value to either half checks first and then zeroes both, whatever the timer did in the call
(the order is decision D32).
That no read data is left is the model's choice (log 13). -/
def Obligations.DividerWritesCheckThenZeroBothHalves : Prop :=
  ∀ (v : Byte) (s : State) (ops : List PortOp) (i : Instr), Inv s → callAnswer s = .next ops →
    i = .busWrDiv v ∨ i = .busWrDivlsb v →
    ∃ u, exec i s = .next u ∧
      After s u 1 none [] (.called .checkTIMAUnexpectedIncrease :: portEvents ops s.mem) fun a =>
        if a = regAddr .DIV ∨ a = regAddr .DIVLSB then 0x00 else setBy ops a (memRead a s)

/-- R73 inside the window: stored, and the pending overflow is cleared. The window is `t < M_CYCLE_TICKS` (D8, D9).
That no read data is left is the model's choice (log 13). -/
def Obligations.TimaWriteIsKeptInsideTheWindow : Prop :=
  ∀ (v : Byte) (s : State) (t : Nat) (ops : List PortOp), Inv s →
    ticksAnswer s = .next t → t < s.mCycleTicks → callAnswer (consumed 1 s) = .next ops →
    ∃ u, exec (.busWrTima v) s = .next u ∧
      After s u 2 none []
        (.asked .getTicksSinceOverflow :: .called .unsetOverflow ::
          portEvents ops (Memory.regWrite s.mem .TIMA v)) fun a =>
        setBy ops a (if a = regAddr .TIMA then v else memRead a s)

/-- R73 at or beyond the window: nothing is stored and no call is made.
That no read data is left is the model's choice (log 13). -/
def Obligations.TimaWriteIsDroppedOutsideTheWindow : Prop :=
  ∀ (v : Byte) (s : State) (t : Nat), ticksAnswer s = .next t → s.mCycleTicks ≤ t →
    ∃ u, exec (.busWrTima v) s = .next u ∧
      After s u 1 none [] [.asked .getTicksSinceOverflow] fun a => memRead a s

/-- R74: always stored; inside the window the live counter is forced. The window is decision D9 (log 16).
That no read data is left is the model's choice (log 13). -/
def Obligations.TmaWriteStoresAndForcesTheCounterInTheWindow : Prop :=
  ∀ (v : Byte) (s : State) (t : Nat), Inv s → ticksAnswer s = .next t →
    (∀ ops, t < s.mCycleTicks → callAnswer (consumed 1 s) = .next ops →
      ∃ u, exec (.busWrTma v) s = .next u ∧
        After s u 2 none []
          (.asked .getTicksSinceOverflow :: .called (.setTIMA v) ::
            portEvents ops (Memory.regWrite s.mem .TMA v)) fun a =>
          setBy ops a (if a = regAddr .TMA then v else memRead a s)) ∧
    (s.mCycleTicks ≤ t →
      ∃ u, exec (.busWrTma v) s = .next u ∧
        After s u 1 none [] [.asked .getTicksSinceOverflow] fun a =>
          if a = regAddr .TMA then v else memRead a s)

/-- R75: always stored; a falling edge of (enabled AND rate bit) across the store makes the timer's check. The signal is
sampled before and after the store (decision D31).
That no read data is left is the model's choice (log 13). -/
def Obligations.TacWriteChecksOnAFallingEdge : Prop :=
  ∀ (v : Byte) (s : State) (e0 r0 e1 r1 : Bool), Inv s →
    enabledAnswer s = .next e0 → rateBitAnswer (consumed 1 s) = .next r0 →
    enabledAnswer (consumed 2 s) = .next e1 → rateBitAnswer (consumed 3 s) = .next r1 →
    let asks : List Event :=
      [.asked .isTimerEnabled, .asked .getTickRateBit, .asked .isTimerEnabled, .asked .getTickRateBit]
    (∀ ops, ((e0 = true ∧ r0 = true) ∧ ¬ (e1 = true ∧ r1 = true)) → callAnswer (consumed 4 s) = .next ops →
      ∃ u, exec (.busWrTac v) s = .next u ∧
        After s u 5 none []
          (asks ++ .called .checkTIMAUnexpectedIncrease :: portEvents ops (Memory.regWrite s.mem .TAC v))
          fun a => setBy ops a (if a = regAddr .TAC then v else memRead a s)) ∧
    (¬ ((e0 = true ∧ r0 = true) ∧ ¬ (e1 = true ∧ r1 = true)) →
      ∃ u, exec (.busWrTac v) s = .next u ∧
        After s u 4 none [] asks fun a => if a = regAddr .TAC then v else memRead a s)

/-- R76: always stored; inside the window the timer is told to override the flag. The window is decision D9 (log 16).
That the cell holds
the whole byte is decision D6 (log 17), and that no read data is left is the model's choice (log 13). -/
def Obligations.IfWriteStoresAndOverridesInTheWindow : Prop :=
  ∀ (v : Byte) (s : State) (t : Nat), Inv s → ticksAnswer s = .next t →
    (∀ ops, t < s.mCycleTicks → callAnswer (consumed 1 s) = .next ops →
      ∃ u, exec (.busWrIf v) s = .next u ∧
        After s u 2 none []
          (.asked .getTicksSinceOverflow :: .called .setIFOverride ::
            portEvents ops (Memory.regWrite s.mem .IF v)) fun a =>
          setBy ops a (if a = regAddr .IF then v else memRead a s)) ∧
    (s.mCycleTicks ≤ t →
      ∃ u, exec (.busWrIf v) s = .next u ∧
        After s u 1 none [] [.asked .getTicksSinceOverflow] fun a =>
          if a = regAddr .IF then v else memRead a s)

/-- R67 for IE (R77) and the plain registers SCY, SCX, LY, LYC, BGP, OBP0, OBP1 (R80): stored whole, no call.
That the cell holds the whole byte, IE's forced bits included, is
decision D6 (log 17), and that no read data is left is the model's choice (log 13). -/
def Obligations.DefaultRegisterWritesStoreTheByte : Prop :=
  ∀ (id : RegId) (v : Byte) (s : State), id ∈ defaultRegs → Inv s →
    ∃ u, exec (busWrRow id v) s = .next u ∧
      After s u 0 none [] [] fun a => if a = regAddr id then v else memRead a s

/-- R78: taking the top two bits from any set to none set resets the video device, then clears the surface, then stores, so
that inside the calls LCDC still reads its old value; every other write only stores.
That no read data is left is the model's choice (log 13). -/
def Obligations.LcdcWriteResetsVideoWhenTurnedOff : Prop :=
  ∀ (v : Byte) (s : State), Inv s →
    let old := memRead (regAddr .LCDC) s
    (∀ ops ops', ((old.getLsbD 7 = true ∨ old.getLsbD 6 = true) ∧ v.getLsbD 7 = false ∧ v.getLsbD 6 = false) →
      callAnswer s = .next ops → callAnswer (consumed 1 s) = .next ops' →
      ∃ u, exec (.busWrLcdc v) s = .next u ∧
        After s u 2 none []
          (.called .videoReset :: portEvents ops s.mem ++
            .called .surfaceClear :: portEvents ops' (Memory.afterPortOps ops s.mem)) fun a =>
          if a = regAddr .LCDC then v else setBy ops' a (setBy ops a (memRead a s))) ∧
    (¬ ((old.getLsbD 7 = true ∨ old.getLsbD 6 = true) ∧ v.getLsbD 7 = false ∧ v.getLsbD 6 = false) →
      ∃ u, exec (.busWrLcdc v) s = .next u ∧
        After s u 0 none [] [] fun a => if a = regAddr .LCDC then v else memRead a s)

/-- R79: bits 6:3 are replaced, bits 2:0 kept, and bit 7 stored as 1 (decision D24, log 17).
That no read data is left is the model's choice (log 13). -/
def Obligations.StatWriteChangesOnlyTheConfigurableBits : Prop :=
  ∀ (v : Byte) (s : State), Inv s →
    ∃ u, exec (.busWrStat v) s = .next u ∧
      After s u 0 none [] [] fun a =>
        if a = regAddr .STAT then 0x80 ||| (v &&& 0x78) ||| (memRead a s &&& 0x07) else memRead a s

/-- R81: a value up to 0xF1 is stored and starts a transfer from value times 256; a larger one does nothing (that it is
not stored is decision D25, log 18).
That no read data is left is the model's choice (log 13). -/
def Obligations.DmaWriteStartsATransferUpToF1 : Prop :=
  ∀ (v : Byte) (s : State), Inv s →
    (∀ ops, v.toNat ≤ 0xF1 → callAnswer s = .next ops →
      ∃ u, exec (.busWrDma v) s = .next u ∧
        After s u 1 none []
          (.called (.startTransfer (BitVec.ofNat 16 (v.toNat * 256))) ::
            portEvents ops (Memory.regWrite s.mem .DMA v)) fun a =>
          setBy ops a (if a = regAddr .DMA then v else memRead a s)) ∧
    (0xF2 ≤ v.toNat →
      ∃ u, exec (.busWrDma v) s = .next u ∧ After s u 0 none [] [] fun a => memRead a s)

/-- R82: from not set to exactly 0x01 the latch is stored and the cartridge is loaded once; any other write does nothing
(that it stores nothing is decision D11, log 18).
That no read data is left is the model's choice (log 13). -/
def Obligations.BootLatchWriteReloadsOnce : Prop :=
  ∀ (v : Byte) (s : State), Inv s →
    (∀ cart, memRead (regAddr .BOOT_ROM_DISABLE) s ≠ 0x01 → v = 0x01 → cartAnswer s = .next cart →
      ∃ u, exec (.busWrBootRomDisable v) s = .next u ∧
        After s u 1 none [] [.asked .cartRead] fun a =>
          if a = regAddr .BOOT_ROM_DISABLE then 0x01 else loadedCell cart a (memRead a s)) ∧
    (memRead (regAddr .BOOT_ROM_DISABLE) s = 0x01 ∨ v ≠ 0x01 →
      ∃ u, exec (.busWrBootRomDisable v) s = .next u ∧ After s u 0 none [] [] fun a => memRead a s)

/-! ## What each transaction leaves: the device port and the loader -/

/-- R92: the byte is stored whole in the register's cell; no quirk, no call, whatever the register.
That the cell holds the whole byte in a register with a mask is decision D6 (log 17), and that no read data is left is the
model's choice (log 13). -/
def Obligations.RegSetStoresTheByteAndNothingElse : Prop :=
  ∀ (id : RegId) (v : Byte) (s : State), Inv s →
    ∃ u, exec (.regSet id v) s = .next u ∧
      After s u 0 none [] [] fun a => if a = regAddr id then v else memRead a s

/-- R95, R97: byte `i` of the image goes to address `i`, up to 0x7FFF and up to the image's end; nothing else changes, the
boot latch included. The window is decision D13 (log 19), the latch decision D28 (log 21).
That no read data is left is the model's choice (log 13). -/
def Obligations.LoadCartPlacesTheImage : Prop :=
  ∀ (s : State) (cart : CartAnswer), Inv s → cartAnswer s = .next cart →
    ∃ u, exec .loadCart s = .next u ∧
      (After s u 1 none [] [.asked .cartRead] fun a => loadedCell cart a (memRead a s)) ∧
      latchSet u = latchSet s

/-- R96: a failed load changes no cell and gives no signal, at reset, by LOAD_CART and by the latch (decision D14).
That no read data is left is the model's choice (log 13). -/
def Obligations.FailedLoadsAreSilentNoOps : Prop :=
  (∀ s : State, Inv s → cartAnswer s = .next .failure →
    (∃ u, exec .loadCart s = .next u ∧ After s u 1 none [] [.asked .cartRead] fun a => memRead a s) ∧
    (latchSet s = false →
      ∃ u, exec (.busWrBootRomDisable 0x01) s = .next u ∧
        After s u 1 none [] [.asked .cartRead] fun a =>
          if a = regAddr .BOOT_ROM_DISABLE then 0x01 else memRead a s)) ∧
  (∀ p : Config.Params, p.valid → ∀ a : Addr,
    memRead a (State.resetWith p .failure) = (p.bootImage[a.toNat]?).getD 0x00)

/-- R39: the bytes go to rising addresses from the start; past 0xFFFF the primitive faults (K3, a fault of the model). -/
def Obligations.BulkWritesStayInsideTheAddressSpace : Prop :=
  ∀ (s : State) (start : Nat) (bytes : List Byte), Inv s →
    (0x10000 < start + bytes.length → memWriteBytes start bytes s = .fault .bulkOverrun) ∧
    (start + bytes.length ≤ 0x10000 →
      ∃ u, memWriteBytes start bytes s = .next u ∧
        After s u 0 s.readData [] [] fun a =>
          if start ≤ a.toNat then (bytes[a.toNat - start]?).getD (memRead a s) else memRead a s)

/-- R99: from reset, the bus write that sets the latch replaces every boot-image byte by the cartridge byte at its address,
when the image is at least as long as the boot image (decisions D12, D13). -/
def Obligations.SettingTheLatchReplacesTheBootImage : Prop :=
  ∀ (p : Config.Params) (first : CartAnswer) (bytes : List Byte), p.valid →
    p.bootImage.length ≤ bytes.length →
    ∃ u, exec (.busWrBootRomDisable 0x01)
        { State.resetWith p first with answers := [.cart (.image bytes)] } = .next u ∧
      latchSet u = true ∧
      ∀ a : Addr, a.toNat < p.bootImage.length → some (memRead a u) = bytes[a.toNat]?

/-- R121, R96: after a failed reload the latch is set, and no bus write to it asks the cartridge again. -/
def Obligations.AFailedReloadIsNotRetriedOnTheBus : Prop :=
  ∀ s : State, Inv s → latchSet s = false → cartAnswer s = .next .failure →
    ∃ u, exec (.busWrBootRomDisable 0x01) s = .next u ∧ latchSet u = true ∧
      ∀ v, ∃ u', exec (.busWrBootRomDisable v) u = .next u' ∧ u'.mem = u.mem ∧ u'.events = u.events

/-! ## Where a transaction stops -/

/-- R119 (decision D15): a called device that issues anything but REG_GET and REG_SET has the transaction refused, at every call. -/
def Obligations.NestedBusTransactionsAreRefused : Prop :=
  ∀ (v : Byte) (s : State) (txns : List Instr) (rest : List Answer) (nested : Instr), nested ∈ txns →
    (∀ id, nested ≠ .regGet id) → (∀ id w, nested ≠ .regSet id w) →
    (s.answers = .returns txns :: rest →
      exec (.busWrDiv v) s = .refused .nestedTransaction ∧
      exec (.busWrDivlsb v) s = .refused .nestedTransaction ∧
      (v.toNat ≤ 0xF1 → exec (.busWrDma v) s = .refused .nestedTransaction) ∧
      (displayTurnedOff (regRead .LCDC s) v = true → exec (.busWrLcdc v) s = .refused .nestedTransaction)) ∧
    (∀ first ops, portOpsOf first = some ops → s.answers = .returns first :: .returns txns :: rest →
      displayTurnedOff (regRead .LCDC s) v = true → exec (.busWrLcdc v) s = .refused .nestedTransaction) ∧
    (∀ t, s.answers = .ticks t :: .returns txns :: rest → t < s.mCycleTicks →
      exec (.busWrTima v) s = .refused .nestedTransaction ∧
      exec (.busWrTma v) s = .refused .nestedTransaction ∧
      exec (.busWrIf v) s = .refused .nestedTransaction) ∧
    (∀ e1 r1, (e1 && r1) = false →
      s.answers = [.enabled true, .rateBit true, .enabled e1, .rateBit r1] ++ .returns txns :: rest →
      exec (.busWrTac v) s = .refused .nestedTransaction)

/-- R106 (decision D10): an answer of another type than the query's or the call's is the fault DeviceContract, at every query
and call a transaction makes: the first, those after the timer's ticks, the three later samples of TAC, its check, and the
surface's clear (log 11). -/
def Obligations.AnswersOfTheWrongTypeFault : Prop :=
  ∀ (v : Byte) (s : State) (x : Answer) (rest : List Answer),
    (s.answers = x :: rest →
      ((∀ ps, x ≠ .inputs ps) → exec .busRdJoyp s = .fault .deviceContract) ∧
      ((∀ t, x ≠ .ticks t) →
        exec (.busWrTima v) s = .fault .deviceContract ∧
        exec (.busWrTma v) s = .fault .deviceContract ∧
        exec (.busWrIf v) s = .fault .deviceContract) ∧
      ((∀ b, x ≠ .enabled b) → exec (.busWrTac v) s = .fault .deviceContract) ∧
      ((∀ txns, x ≠ .returns txns) →
        exec (.busWrDiv v) s = .fault .deviceContract ∧
        exec (.busWrDivlsb v) s = .fault .deviceContract ∧
        (v.toNat ≤ 0xF1 → exec (.busWrDma v) s = .fault .deviceContract) ∧
        (displayTurnedOff (regRead .LCDC s) v = true → exec (.busWrLcdc v) s = .fault .deviceContract)) ∧
      ((∀ c, x ≠ .cart c) →
        exec .loadCart s = .fault .deviceContract ∧
        (latchTransition s v = true → exec (.busWrBootRomDisable v) s = .fault .deviceContract))) ∧
    (∀ t, s.answers = .ticks t :: x :: rest → t < s.mCycleTicks → (∀ txns, x ≠ .returns txns) →
      exec (.busWrTima v) s = .fault .deviceContract ∧
      exec (.busWrTma v) s = .fault .deviceContract ∧
      exec (.busWrIf v) s = .fault .deviceContract) ∧
    (∀ e0, s.answers = .enabled e0 :: x :: rest → (∀ b, x ≠ .rateBit b) →
      exec (.busWrTac v) s = .fault .deviceContract) ∧
    (∀ e0 r0, s.answers = .enabled e0 :: .rateBit r0 :: x :: rest → (∀ b, x ≠ .enabled b) →
      exec (.busWrTac v) s = .fault .deviceContract) ∧
    (∀ e0 r0 e1, s.answers = .enabled e0 :: .rateBit r0 :: .enabled e1 :: x :: rest → (∀ b, x ≠ .rateBit b) →
      exec (.busWrTac v) s = .fault .deviceContract) ∧
    (∀ e1 r1, (e1 && r1) = false →
      s.answers = .enabled true :: .rateBit true :: .enabled e1 :: .rateBit r1 :: x :: rest →
      (∀ txns, x ≠ .returns txns) → exec (.busWrTac v) s = .fault .deviceContract) ∧
    (∀ ops : List PortOp, s.answers = .returns (ops.map instrOf) :: x :: rest → (∀ txns, x ≠ .returns txns) →
      displayTurnedOff (regRead .LCDC s) v = true → exec (.busWrLcdc v) s = .fault .deviceContract)

/-- R69: a pair outside the input contract is the fault InputContract (decision D7, log 15). -/
def Obligations.InputPairsOutsideTheContractFault : Prop :=
  ∀ (s : State) (ps : List Pressed) (rest : List Answer) (p : Pressed), s.answers = .inputs ps :: rest →
    p ∈ ps →
    ¬ ((p.sel = 0x10 ∨ p.sel = 0x20) ∧ (p.prs = 0x01 ∨ p.prs = 0x02 ∨ p.prs = 0x04 ∨ p.prs = 0x08)) →
    exec .busRdJoyp s = .fault .inputContract

/-! ## What a scripted answer says -/

/-- R8, R106: an answer of the right type is what the query or the call is answered, exactly, and it is used up. That the
answers stand in a script is the model's form for the spec's inputs (D10, log 7); the contract of the pressed inputs is D7. -/
def Obligations.ScriptedAnswersAreTakenAsGiven : Prop :=
  ∀ (s : State) (rest : List Answer),
    (∀ t, s.answers = .ticks t :: rest → ticksAnswer s = .next t) ∧
    (∀ b, s.answers = .enabled b :: rest → enabledAnswer s = .next b) ∧
    (∀ b, s.answers = .rateBit b :: rest → rateBitAnswer s = .next b) ∧
    (∀ ps, s.answers = .inputs ps :: rest →
      (∀ p ∈ ps, (p.sel = 0x10 ∨ p.sel = 0x20) ∧ (p.prs = 0x01 ∨ p.prs = 0x02 ∨ p.prs = 0x04 ∨ p.prs = 0x08)) →
      pressedAnswer s = .next ps) ∧
    (∀ c, s.answers = .cart c :: rest → cartAnswer s = .next c) ∧
    (∀ ops : List PortOp, s.answers = .returns (ops.map instrOf) :: rest → callAnswer s = .next ops) ∧
    (∀ x, s.answers = x :: rest → (consumed 1 s).answers = rest ∧ (consumed 1 s).drawn = s.drawn)

/-! ## What the ports show -/

/-- R92 as the ports show it: the register then reads as the byte with its mask, every other register and every other cell
as before, and no device is called. This holds wherever the mask is applied. -/
def Obligations.RegSetIsReadBackWithItsMask : Prop :=
  ∀ (id : RegId) (v : Byte) (s : State), Inv s →
    ∃ u, exec (.regSet id v) s = .next u ∧
      (∀ r, regRead r u = if r = id then v ||| forceHigh id else regRead r s) ∧
      (∀ a, (∀ r, a ≠ regAddr r) → memRead a u = memRead a s) ∧
      u.transcript = s.transcript ∧ u.events = s.events ∧ u.answers = s.answers

/-- R77, R80 as the bus shows them: a bus read after the bus write returns the byte, with the top three bits 1 in IE, and
no device is asked or called. -/
def Obligations.DefaultRegistersReadBackWhatIsWritten : Prop :=
  ∀ (id : RegId) (v : Byte) (s : State), id ∈ defaultRegs → Inv s →
    ∃ u w, exec (busWrRow id v) s = .next u ∧ exec (busRdRow id) u = .next w ∧
      w.readData = some (if id = .IE then v ||| 0xE0 else v) ∧
      (∀ r, r ≠ id → regRead r u = regRead r s) ∧
      (∀ a, (∀ r, a ≠ regAddr r) → memRead a u = memRead a s) ∧
      w.transcript = s.transcript ∧ w.events = s.events ∧ w.answers = s.answers

/-- R89, R90 as the bus shows them: a byte written at one address is read at it and at its partner, and every other cell is
as before. -/
def Obligations.EchoWritesAreReadAtBothAddresses : Prop :=
  ∀ (a b : Addr) (v : Byte) (s : State), Inv s →
    0xC000 ≤ a.toNat ∧ a.toNat ≤ 0xDDFF → b.toNat = a.toNat + 0x2000 →
    ∀ i : Instr, i = .busWrEchoA a v ∨ i = .busWrEchoB b v →
      ∃ u w w', exec i s = .next u ∧
        exec (.busRdMem a) u = .next w ∧ w.readData = some v ∧
        exec (.busRdMem b) u = .next w' ∧ w'.readData = some v ∧
        (∀ c, c ≠ a → c ≠ b → memRead c u = memRead c s) ∧
        u.transcript = s.transcript ∧ u.events = s.events ∧ u.answers = s.answers

/-- R85: "no state change, no device call, no transcript append". -/
def Obligations.RomWritesChangeNoStateOfTheBlock : Prop :=
  ∀ (a : Addr) (v : Byte) (s : State), a.toNat ≤ 0x7FFF →
    ∃ u, exec (.busWrRom a v) s = .next u ∧
      u.mem = s.mem ∧ u.transcript = s.transcript ∧ u.events = s.events ∧ u.answers = s.answers
end

