-- ==== Sys2Proof/Laws/Memory.lean ====
section
/-! SUPPORT. The laws of MEM: a read after a write, the canonical form, and the address map. -/

namespace Sys2Proof.Machine

/-! ## Canonical form -/

theorem Memory.wfFrom_cons {lo k : Nat} {v : Byte} {m : Memory} :
    Memory.wfFrom lo ((k, v) :: m) = true ↔
      lo ≤ k ∧ k < 0x10000 ∧ v ≠ unlisted ∧ Memory.wfFrom (k + 1) m = true := by
  simp [Memory.wfFrom, and_assoc]

theorem Memory.wfFrom_mono {lo lo' : Nat} {m : Memory} (h : lo' ≤ lo)
    (hm : Memory.wfFrom lo m = true) : Memory.wfFrom lo' m = true := by
  cases m with
  | nil => rfl
  | cons c m =>
    obtain ⟨k, v⟩ := c
    rw [Memory.wfFrom_cons] at hm ⊢
    exact ⟨h.trans hm.1, hm.2⟩

/-- Below its first address a canonical memory lists nothing. -/
theorem Memory.cell_below {lo a : Nat} {m : Memory} (hm : Memory.wfFrom lo m = true) (ha : a < lo) :
    Memory.cell m a = unlisted := by
  induction m generalizing lo with
  | nil => rfl
  | cons c m ih =>
    obtain ⟨k, v⟩ := c
    obtain ⟨h1, -, -, h4⟩ := Memory.wfFrom_cons.mp hm
    simp only [Memory.cell]
    rw [if_neg (by omega)]
    exact ih h4 (by omega)

/-- A write keeps the canonical form. -/
theorem Memory.setCell_wfFrom {lo a : Nat} {v : Byte} {m : Memory} (hm : Memory.wfFrom lo m = true)
    (hlo : lo ≤ a) (ha : a < 0x10000) : Memory.wfFrom lo (Memory.setCell m a v) = true := by
  induction m generalizing lo with
  | nil =>
    simp only [Memory.setCell]
    split
    · rfl
    · exact Memory.wfFrom_cons.mpr ⟨hlo, ha, ‹_›, rfl⟩
  | cons c m ih =>
    obtain ⟨k, w⟩ := c
    have hc := Memory.wfFrom_cons.mp hm
    obtain ⟨h1, h2, h3, h4⟩ := hc
    simp only [Memory.setCell]
    split
    · split
      · exact hm
      · exact Memory.wfFrom_cons.mpr
          ⟨hlo, ha, ‹_›, Memory.wfFrom_cons.mpr ⟨by omega, h2, h3, h4⟩⟩
    · split
      · split
        · exact Memory.wfFrom_mono (by omega) h4
        · exact Memory.wfFrom_cons.mpr ⟨hlo, ha, ‹_›, by subst_vars; exact h4⟩
      · exact Memory.wfFrom_cons.mpr ⟨h1, h2, h3, ih h4 (by omega)⟩

/-! ## A read after a write -/

/-- In a canonical memory a read after a write to the same cell gives the value written. -/
theorem Memory.cell_setCell_same {lo a : Nat} {v : Byte} {m : Memory} (hm : Memory.wfFrom lo m = true) :
    Memory.cell (Memory.setCell m a v) a = v := by
  induction m generalizing lo with
  | nil =>
    simp only [Memory.setCell]
    split <;> simp_all [Memory.cell]
  | cons c m ih =>
    obtain ⟨k, w⟩ := c
    obtain ⟨-, -, -, h4⟩ := Memory.wfFrom_cons.mp hm
    simp only [Memory.setCell]
    split
    · split
      · next hlt hv =>
        simp only [Memory.cell, hv]
        rw [if_neg (by omega)]
        exact Memory.cell_below h4 (by omega)
      · simp [Memory.cell]
    · split
      · split
        · next hk hv => rw [hv]; exact Memory.cell_below h4 (by omega)
        · simp [Memory.cell]
      · next hk => simp only [Memory.cell, hk, if_false]; exact ih h4

/-- A write leaves every other cell alone. -/
theorem Memory.cell_setCell_other {a b : Nat} {v : Byte} {m : Memory} (hab : b ≠ a) :
    Memory.cell (Memory.setCell m a v) b = Memory.cell m b := by
  induction m with
  | nil => simp only [Memory.setCell]; split <;> simp [Memory.cell, hab]
  | cons c m ih =>
    obtain ⟨k, w⟩ := c
    simp only [Memory.setCell]
    split
    · split <;> simp [Memory.cell, hab]
    · split
      · split <;> (subst_vars; simp [Memory.cell, hab])
      · simp only [Memory.cell, ih]

theorem Memory.write_wf {m : Memory} (hm : Memory.wf m = true) (a : Addr) (v : Byte) :
    Memory.wf (Memory.write m a v) = true :=
  Memory.setCell_wfFrom hm (Nat.zero_le _) a.isLt

/-- `MemRead` after `MemWrite` (R37, R38). -/
theorem Memory.read_write {m : Memory} (hm : Memory.wf m = true) (a b : Addr) (v : Byte) :
    Memory.read (Memory.write m a v) b = if b = a then v else Memory.read m b := by
  simp only [Memory.read, Memory.write]
  split
  · subst_vars; exact Memory.cell_setCell_same hm
  · next h => exact Memory.cell_setCell_other fun h' => h (BitVec.eq_of_toNat_eq h')

theorem Memory.read_write_other {m : Memory} {a b : Addr} {v : Byte} (h : b ≠ a) :
    Memory.read (Memory.write m a v) b = Memory.read m b :=
  Memory.cell_setCell_other fun h' => h (BitVec.eq_of_toNat_eq h')

theorem Memory.regWrite_wf {m : Memory} (hm : Memory.wf m = true) (id : RegId) (v : Byte) :
    Memory.wf (Memory.regWrite m id v) = true := Memory.write_wf hm _ _

theorem Memory.read_regWrite {m : Memory} (hm : Memory.wf m = true) (id : RegId) (b : Addr) (v : Byte) :
    Memory.read (Memory.regWrite m id v) b = if b = regAddr id then v else Memory.read m b :=
  Memory.read_write hm _ _ _

/-! ## Bulk writes -/

theorem Memory.writeBytes_wfFrom {m : Memory} {start : Nat} {bs : List Byte}
    (hm : Memory.wf m = true) (h : start + bs.length ≤ 0x10000) :
    Memory.wf (Memory.writeBytes m start bs) = true := by
  induction bs generalizing m start with
  | nil => exact hm
  | cons b bs ih =>
    simp only [List.length_cons] at h
    exact ih (Memory.setCell_wfFrom hm (Nat.zero_le _) (by omega)) (by omega)

/-- `MemWriteBytes` (R39): byte `i` is at `start + i`, every other cell is as before. -/
theorem Memory.cell_writeBytes {m : Memory} {start : Nat} {bs : List Byte} (a : Nat)
    (hm : Memory.wf m = true) (h : start + bs.length ≤ 0x10000) :
    Memory.cell (Memory.writeBytes m start bs) a =
      if start ≤ a then (bs[a - start]?).getD (Memory.cell m a) else Memory.cell m a := by
  induction bs generalizing m start with
  | nil => simp [Memory.writeBytes]
  | cons b bs ih =>
    simp only [List.length_cons] at h
    have hm' : Memory.wf (Memory.setCell m start b) = true :=
      Memory.setCell_wfFrom hm (Nat.zero_le _) (by omega)
    simp only [Memory.writeBytes]
    rw [ih hm' (by omega)]
    rcases Nat.lt_trichotomy a start with hlt | heq | hgt
    · rw [if_neg (by omega), if_neg (by omega)]
      exact Memory.cell_setCell_other (by omega)
    · subst heq
      rw [if_neg (by omega), if_pos (Nat.le_refl _)]
      simp [Memory.cell_setCell_same hm]
    · rw [if_pos (by omega), if_pos (by omega), Memory.cell_setCell_other (by omega)]
      rw [show a - start = (a - (start + 1)) + 1 by omega, List.getElem?_cons_succ]

/-- A bulk write below an address leaves it alone, whatever the memory. -/
theorem Memory.cell_writeBytes_above {m : Memory} {start a : Nat} {bs : List Byte}
    (h : start + bs.length ≤ a) : Memory.cell (Memory.writeBytes m start bs) a = Memory.cell m a := by
  induction bs generalizing m start with
  | nil => rfl
  | cons b bs ih =>
    simp only [List.length_cons] at h
    simp only [Memory.writeBytes]
    rw [ih (by omega), Memory.cell_setCell_other (by omega)]

theorem Memory.load_wf {m : Memory} (hm : Memory.wf m = true) (c : CartAnswer) :
    Memory.wf (Memory.load m c) = true := by
  cases c with
  | failure => exact hm
  | image bytes =>
    refine Memory.writeBytes_wfFrom hm ?_
    simp only [List.length_take, cartWindow]
    omega

/-- `LoadCartridge()` cell by cell (R95, R96). -/
theorem Memory.read_load {m : Memory} (hm : Memory.wf m = true) (c : CartAnswer) (a : Addr) :
    Memory.read (Memory.load m c) a = loadedCell c a (Memory.read m a) := by
  cases c with
  | failure => rfl
  | image bytes =>
    have hlen : 0 + (bytes.take cartWindow).length ≤ 0x10000 := by
      simp only [List.length_take, cartWindow]; omega
    simp only [Memory.load, Memory.read, loadedCell]
    rw [Memory.cell_writeBytes _ hm hlen, if_pos (Nat.zero_le _), Nat.sub_zero, List.getElem?_take]
    simp only [cartWindow]
    by_cases hlt : a.toNat < 0x8000 <;> simp [hlt]

/-- A load touches no address from 0x8000 on (R95). -/
theorem Memory.read_load_high {m : Memory} (c : CartAnswer) {a : Addr} (h : 0x8000 ≤ a.toNat) :
    Memory.read (Memory.load m c) a = Memory.read m a := by
  cases c with
  | failure => rfl
  | image bytes =>
    refine Memory.cell_writeBytes_above ?_
    simp only [List.length_take, cartWindow]
    omega

/-- A canonical memory is determined by its cells. -/
theorem Memory.ext_of_wfFrom {lo : Nat} {m n : Memory} (hm : Memory.wfFrom lo m = true)
    (hn : Memory.wfFrom lo n = true) (h : ∀ a, Memory.cell m a = Memory.cell n a) : m = n := by
  induction m generalizing n lo with
  | nil =>
    cases n with
    | nil => rfl
    | cons d n =>
      obtain ⟨k, v⟩ := d
      have := h k
      simp [Memory.cell] at this
      exact absurd this.symm (Memory.wfFrom_cons.mp hn).2.2.1
  | cons c m ih =>
    obtain ⟨k, v⟩ := c
    obtain ⟨-, -, hv, hm'⟩ := Memory.wfFrom_cons.mp hm
    cases n with
    | nil =>
      have := h k
      simp [Memory.cell] at this
      exact absurd this hv
    | cons d n =>
      obtain ⟨l, w⟩ := d
      obtain ⟨-, -, hw, hn'⟩ := Memory.wfFrom_cons.mp hn
      have hk := h k
      have hl := h l
      simp only [Memory.cell, if_true] at hk hl
      rcases Nat.lt_trichotomy k l with hlt | rfl | hgt
      · rw [if_neg (by omega), Memory.cell_below hn' (by omega)] at hk
        exact absurd hk hv
      · rw [if_pos rfl] at hk
        subst hk
        congr 1
        refine ih hm' hn' fun a => ?_
        by_cases ha : a = k
        · subst ha
          rw [Memory.cell_below hm' (by omega), Memory.cell_below hn' (by omega)]
        · have := h a
          simpa [Memory.cell, ha] using this
      · rw [if_neg (by omega), Memory.cell_below hm' (by omega)] at hl
        exact absurd hl.symm hw

/-! ## The address map -/

/-- The directory binds each identity at its address (R20). -/
theorem regAt_regAddr (id : RegId) : regAt (regAddr id) = some id := by cases id <;> decide

/-- What the directory binds at an address has that address. -/
theorem regAddr_of_regAt {a : Addr} {id : RegId} (h : regAt a = some id) : a = regAddr id := by
  have key : ∀ l : List (Addr × RegId), (∀ p ∈ l, p.1 = regAddr p.2) →
      lookupReg a l = some id → a = regAddr id := by
    intro l
    induction l with
    | nil => simp [lookupReg]
    | cons p l ih =>
      obtain ⟨b, id'⟩ := p
      intro hl h
      simp only [lookupReg] at h
      split at h
      · next hab =>
        cases h
        rw [hab]; exact hl (b, id) (by simp)
      · exact ih (fun p hp => hl p (by simp [hp])) h
  exact key directory (by decide) h

theorem regAt_eq_some {a : Addr} {id : RegId} : regAt a = some id ↔ a = regAddr id :=
  ⟨regAddr_of_regAt, fun h => h ▸ regAt_regAddr id⟩

theorem regAt_eq_none {a : Addr} : regAt a = none ↔ ∀ id, a ≠ regAddr id := by
  constructor
  · intro h id ha
    rw [ha, regAt_regAddr] at h
    cases h
  · intro h
    cases hr : regAt a with
    | none => rfl
    | some id => exact absurd (regAddr_of_regAt hr) (h id)

theorem regAddr_injective {id id' : RegId} (h : regAddr id = regAddr id') : id = id' :=
  Option.some.inj (by rw [← regAt_regAddr id, h, regAt_regAddr])

@[simp] theorem regAddr_inj {id id' : RegId} : regAddr id = regAddr id' ↔ id = id' :=
  ⟨regAddr_injective, congrArg regAddr⟩

/-- Every register lies at 0xFF00 or above (D33). -/
theorem regAddr_high (id : RegId) : 0xFF00 ≤ (regAddr id).toNat := by cases id <;> decide

/-- No register lies at the serial-data port (D33). -/
theorem regAddr_ne_serial (id : RegId) : regAddr id ≠ serialAddr := by cases id <;> decide

theorem regAt_serial : regAt serialAddr = none := by decide

theorem ne_regAddr_of_low {a : Addr} (h : a.toNat < 0xFF00) (id : RegId) : a ≠ regAddr id := by
  intro ha
  have := regAddr_high id
  rw [← ha] at this
  omega

/-! ## Device-port transactions -/

theorem Memory.afterPortOps_wf {m : Memory} (hm : Memory.wf m = true) (ops : List PortOp) :
    Memory.wf (Memory.afterPortOps ops m) = true := by
  induction ops generalizing m with
  | nil => exact hm
  | cons o ops ih =>
    cases o with
    | get id => exact ih hm
    | set id v => exact ih (Memory.regWrite_wf hm id v)

/-- What device-port transactions leave, cell by cell (R92). -/
theorem Memory.read_afterPortOps {m : Memory} (hm : Memory.wf m = true) (ops : List PortOp) (a : Addr) :
    Memory.read (Memory.afterPortOps ops m) a = setBy ops a (Memory.read m a) := by
  induction ops generalizing m with
  | nil => rfl
  | cons o ops ih =>
    cases o with
    | get id => exact ih hm
    | set id v =>
      simp only [Memory.afterPortOps, setBy, lastSet]
      rw [ih (Memory.regWrite_wf hm id v), Memory.read_regWrite hm]
      simp only [setBy]
      cases lastSet ops a with
      | some w => rfl
      | none => dsimp only; split <;> rfl

/-- Device-port transactions touch register cells only (70_reset_and_hazards.md R118). -/
theorem lastSet_eq_none {ops : List PortOp} {a : Addr} (h : ∀ id, a ≠ regAddr id) :
    lastSet ops a = none := by
  induction ops with
  | nil => rfl
  | cons o ops ih => cases o <;> simp [lastSet, ih, h]

end Sys2Proof.Machine
end

