-- ==== Sys2Proof/Laws/State.lean ====
section
/-! SUPPORT. One lemma per field for each operation that updates State, and the lemmas of `andThen`. -/

namespace Sys2Proof.Machine

@[simp] theorem memWrite_mem (a : Addr) (v : Byte) (s : State) :
    (memWrite a v s).mem = Memory.write s.mem a v := rfl
@[simp] theorem memWrite_transcript (a : Addr) (v : Byte) (s : State) :
    (memWrite a v s).transcript = s.transcript := rfl
@[simp] theorem memWrite_readData (a : Addr) (v : Byte) (s : State) :
    (memWrite a v s).readData = s.readData := rfl
@[simp] theorem memWrite_events (a : Addr) (v : Byte) (s : State) :
    (memWrite a v s).events = s.events := rfl
@[simp] theorem memWrite_answers (a : Addr) (v : Byte) (s : State) :
    (memWrite a v s).answers = s.answers := rfl
@[simp] theorem memWrite_drawn (a : Addr) (v : Byte) (s : State) :
    (memWrite a v s).drawn = s.drawn := rfl
@[simp] theorem memWrite_mCycleTicks (a : Addr) (v : Byte) (s : State) :
    (memWrite a v s).mCycleTicks = s.mCycleTicks := rfl
@[simp] theorem memWrite_program (a : Addr) (v : Byte) (s : State) :
    (memWrite a v s).program = s.program := rfl
@[simp] theorem memWrite_pos (a : Addr) (v : Byte) (s : State) :
    (memWrite a v s).pos = s.pos := rfl

@[simp] theorem regWrite_mem (id : RegId) (v : Byte) (s : State) :
    (regWrite id v s).mem = Memory.regWrite s.mem id v := rfl
@[simp] theorem regWrite_transcript (id : RegId) (v : Byte) (s : State) :
    (regWrite id v s).transcript = s.transcript := rfl
@[simp] theorem regWrite_readData (id : RegId) (v : Byte) (s : State) :
    (regWrite id v s).readData = s.readData := rfl
@[simp] theorem regWrite_events (id : RegId) (v : Byte) (s : State) :
    (regWrite id v s).events = s.events := rfl
@[simp] theorem regWrite_answers (id : RegId) (v : Byte) (s : State) :
    (regWrite id v s).answers = s.answers := rfl
@[simp] theorem regWrite_drawn (id : RegId) (v : Byte) (s : State) :
    (regWrite id v s).drawn = s.drawn := rfl
@[simp] theorem regWrite_mCycleTicks (id : RegId) (v : Byte) (s : State) :
    (regWrite id v s).mCycleTicks = s.mCycleTicks := rfl
@[simp] theorem regWrite_program (id : RegId) (v : Byte) (s : State) :
    (regWrite id v s).program = s.program := rfl
@[simp] theorem regWrite_pos (id : RegId) (v : Byte) (s : State) :
    (regWrite id v s).pos = s.pos := rfl

@[simp] theorem regWriteIf_mem (c : Bool) (id : RegId) (v : Byte) (s : State) :
    (regWriteIf c id v s).mem = if c then Memory.regWrite s.mem id v else s.mem := rfl
@[simp] theorem regWriteIf_transcript (c : Bool) (id : RegId) (v : Byte) (s : State) :
    (regWriteIf c id v s).transcript = s.transcript := rfl
@[simp] theorem regWriteIf_readData (c : Bool) (id : RegId) (v : Byte) (s : State) :
    (regWriteIf c id v s).readData = s.readData := rfl
@[simp] theorem regWriteIf_events (c : Bool) (id : RegId) (v : Byte) (s : State) :
    (regWriteIf c id v s).events = s.events := rfl
@[simp] theorem regWriteIf_answers (c : Bool) (id : RegId) (v : Byte) (s : State) :
    (regWriteIf c id v s).answers = s.answers := rfl
@[simp] theorem regWriteIf_drawn (c : Bool) (id : RegId) (v : Byte) (s : State) :
    (regWriteIf c id v s).drawn = s.drawn := rfl
@[simp] theorem regWriteIf_mCycleTicks (c : Bool) (id : RegId) (v : Byte) (s : State) :
    (regWriteIf c id v s).mCycleTicks = s.mCycleTicks := rfl
@[simp] theorem regWriteIf_program (c : Bool) (id : RegId) (v : Byte) (s : State) :
    (regWriteIf c id v s).program = s.program := rfl
@[simp] theorem regWriteIf_pos (c : Bool) (id : RegId) (v : Byte) (s : State) :
    (regWriteIf c id v s).pos = s.pos := rfl

@[simp] theorem appendTranscript_mem (v : Byte) (s : State) :
    (appendTranscript v s).mem = s.mem := rfl
@[simp] theorem appendTranscript_transcript (v : Byte) (s : State) :
    (appendTranscript v s).transcript = s.transcript ++ [v] := rfl
@[simp] theorem appendTranscript_readData (v : Byte) (s : State) :
    (appendTranscript v s).readData = s.readData := rfl
@[simp] theorem appendTranscript_events (v : Byte) (s : State) :
    (appendTranscript v s).events = s.events := rfl
@[simp] theorem appendTranscript_answers (v : Byte) (s : State) :
    (appendTranscript v s).answers = s.answers := rfl
@[simp] theorem appendTranscript_drawn (v : Byte) (s : State) :
    (appendTranscript v s).drawn = s.drawn := rfl
@[simp] theorem appendTranscript_mCycleTicks (v : Byte) (s : State) :
    (appendTranscript v s).mCycleTicks = s.mCycleTicks := rfl
@[simp] theorem appendTranscript_program (v : Byte) (s : State) :
    (appendTranscript v s).program = s.program := rfl
@[simp] theorem appendTranscript_pos (v : Byte) (s : State) :
    (appendTranscript v s).pos = s.pos := rfl

@[simp] theorem consume_mem (s : State) :
    (consume s).mem = s.mem := rfl
@[simp] theorem consume_transcript (s : State) :
    (consume s).transcript = s.transcript := rfl
@[simp] theorem consume_readData (s : State) :
    (consume s).readData = s.readData := rfl
@[simp] theorem consume_events (s : State) :
    (consume s).events = s.events := rfl
@[simp] theorem consume_answers (s : State) :
    (consume s).answers = s.answers.tail := rfl
@[simp] theorem consume_drawn (s : State) :
    (consume s).drawn = s.drawn + if s.answers.isEmpty then 1 else 0 := rfl
@[simp] theorem consume_mCycleTicks (s : State) :
    (consume s).mCycleTicks = s.mCycleTicks := rfl
@[simp] theorem consume_program (s : State) :
    (consume s).program = s.program := rfl
@[simp] theorem consume_pos (s : State) :
    (consume s).pos = s.pos := rfl

@[simp] theorem record_mem (e : Event) (s : State) :
    (record e s).mem = s.mem := rfl
@[simp] theorem record_transcript (e : Event) (s : State) :
    (record e s).transcript = s.transcript := rfl
@[simp] theorem record_readData (e : Event) (s : State) :
    (record e s).readData = s.readData := rfl
@[simp] theorem record_events (e : Event) (s : State) :
    (record e s).events = s.events ++ [e] := rfl
@[simp] theorem record_answers (e : Event) (s : State) :
    (record e s).answers = s.answers := rfl
@[simp] theorem record_drawn (e : Event) (s : State) :
    (record e s).drawn = s.drawn := rfl
@[simp] theorem record_mCycleTicks (e : Event) (s : State) :
    (record e s).mCycleTicks = s.mCycleTicks := rfl
@[simp] theorem record_program (e : Event) (s : State) :
    (record e s).program = s.program := rfl
@[simp] theorem record_pos (e : Event) (s : State) :
    (record e s).pos = s.pos := rfl

@[simp] theorem runPortOps_mem (ops : List PortOp) (s : State) :
    (runPortOps ops s).mem = Memory.afterPortOps ops s.mem := rfl
@[simp] theorem runPortOps_transcript (ops : List PortOp) (s : State) :
    (runPortOps ops s).transcript = s.transcript := rfl
@[simp] theorem runPortOps_readData (ops : List PortOp) (s : State) :
    (runPortOps ops s).readData = s.readData := rfl
@[simp] theorem runPortOps_events (ops : List PortOp) (s : State) :
    (runPortOps ops s).events = s.events ++ portEvents ops s.mem := rfl
@[simp] theorem runPortOps_answers (ops : List PortOp) (s : State) :
    (runPortOps ops s).answers = s.answers := rfl
@[simp] theorem runPortOps_drawn (ops : List PortOp) (s : State) :
    (runPortOps ops s).drawn = s.drawn := rfl
@[simp] theorem runPortOps_mCycleTicks (ops : List PortOp) (s : State) :
    (runPortOps ops s).mCycleTicks = s.mCycleTicks := rfl
@[simp] theorem runPortOps_program (ops : List PortOp) (s : State) :
    (runPortOps ops s).program = s.program := rfl
@[simp] theorem runPortOps_pos (ops : List PortOp) (s : State) :
    (runPortOps ops s).pos = s.pos := rfl

@[simp] theorem advance_mem (s : State) :
    (advance s).mem = s.mem := rfl
@[simp] theorem advance_transcript (s : State) :
    (advance s).transcript = s.transcript := rfl
@[simp] theorem advance_readData (s : State) :
    (advance s).readData = s.readData := rfl
@[simp] theorem advance_events (s : State) :
    (advance s).events = s.events := rfl
@[simp] theorem advance_answers (s : State) :
    (advance s).answers = s.answers := rfl
@[simp] theorem advance_drawn (s : State) :
    (advance s).drawn = s.drawn := rfl
@[simp] theorem advance_mCycleTicks (s : State) :
    (advance s).mCycleTicks = s.mCycleTicks := rfl
@[simp] theorem advance_program (s : State) :
    (advance s).program = s.program := rfl
@[simp] theorem advance_pos (s : State) :
    (advance s).pos = s.pos + 1 := rfl

/-! ## `andThen` -/

@[simp] theorem andThen_next {α β : Type} (a : α) (f : α → Result β) : andThen (.next a) f = f a := rfl
@[simp] theorem andThen_fault {α β : Type} (e : Fault) (f : α → Result β) : andThen (.fault e) f = .fault e := rfl
@[simp] theorem andThen_refused {α β : Type} (e : Refusal) (f : α → Result β) :
    andThen (.refused e) f = .refused e := rfl

/-- A sequence answers a next value exactly when both parts do. -/
theorem andThen_eq_next {α β : Type} {r : Result α} {f : α → Result β} {b : β} :
    andThen r f = .next b ↔ ∃ a, r = .next a ∧ f a = .next b := by
  cases r <;> simp

/-- A sequence faults where its first part does, or its second after the first answered. -/
theorem andThen_eq_fault {α β : Type} {r : Result α} {f : α → Result β} {e : Fault} :
    andThen r f = .fault e ↔ r = .fault e ∨ ∃ a, r = .next a ∧ f a = .fault e := by
  cases r <;> simp

/-- A sequence is refused where its first part is, or its second after the first answered. -/
theorem andThen_eq_refused {α β : Type} {r : Result α} {f : α → Result β} {e : Refusal} :
    andThen r f = .refused e ↔ r = .refused e ∨ ∃ a, r = .next a ∧ f a = .refused e := by
  cases r <;> simp

/-- Sequencing is associative. -/
theorem andThen_assoc {α β γ : Type} (r : Result α) (f : α → Result β) (g : β → Result γ) :
    andThen (andThen r f) g = andThen r fun a => andThen (f a) g := by
  cases r <;> rfl

end Sys2Proof.Machine
end

