-- ==== Sys2Proof/Laws/Ops.lean ====
section
/-! SUPPORT. What each shared operation can do, said once. -/

namespace Sys2Proof.Machine

/-! ## Using answers -/

/-- Using `n` answers takes them off the script, and counts those the script did not hold. -/
theorem consumed_eq (n : Nat) (s : State) :
    consumed n s =
      { s with answers := s.answers.drop n, drawn := s.drawn + (n - s.answers.length) } := by
  induction n generalizing s with
  | zero => simp [consumed]
  | succ n ih =>
    rw [consumed, ih]
    cases h : s.answers with
    | nil => simp [consume, h]; omega
    | cons a as => simp [consume, h]

/-- A query that answers gives the answer at hand, records itself and uses the answer. -/
theorem ask_eq_next {α : Type} {q : Query} {answer : State → Result α} {s : State} {r : α × State} :
    ask q answer s = .next r ↔ ∃ a, answer s = .next a ∧ r = (a, record (.asked q) (consume s)) := by
  rw [ask, andThen_eq_next]
  constructor
  · rintro ⟨a, ha, h⟩; exact ⟨a, ha, by cases h; rfl⟩
  · rintro ⟨a, ha, rfl⟩; exact ⟨a, ha, rfl⟩

/-- A query stops only where its answer does. -/
theorem ask_of_answer {α : Type} {q : Query} {answer : State → Result α} {s : State} {a : α}
    (h : answer s = .next a) : ask q answer s = .next (a, record (.asked q) (consume s)) := by
  rw [ask, h]; rfl

/-- An answer at hand is read off the script and the counter alone. -/
theorem ticksAnswer_congr {s t : State} (ha : s.answers = t.answers) (hd : s.drawn = t.drawn) :
    ticksAnswer s = ticksAnswer t := by simp only [ticksAnswer, ha, hd]

theorem enabledAnswer_congr {s t : State} (ha : s.answers = t.answers) (hd : s.drawn = t.drawn) :
    enabledAnswer s = enabledAnswer t := by simp only [enabledAnswer, ha, hd]

theorem rateBitAnswer_congr {s t : State} (ha : s.answers = t.answers) (hd : s.drawn = t.drawn) :
    rateBitAnswer s = rateBitAnswer t := by simp only [rateBitAnswer, ha, hd]

theorem pressedAnswer_congr {s t : State} (ha : s.answers = t.answers) (hd : s.drawn = t.drawn) :
    pressedAnswer s = pressedAnswer t := by simp only [pressedAnswer, ha, hd]

theorem cartAnswer_congr {s t : State} (ha : s.answers = t.answers) (hd : s.drawn = t.drawn) :
    cartAnswer s = cartAnswer t := by simp only [cartAnswer, ha, hd]

theorem callAnswer_congr {s t : State} (ha : s.answers = t.answers) (hd : s.drawn = t.drawn) :
    callAnswer s = callAnswer t := by simp only [callAnswer, ha, hd]

/-! An answer where nothing is scripted is the free one. -/

theorem ticksAnswer_of_nil {s : State} (h : s.answers = []) :
    ticksAnswer s = .next (Config.freeTicks s.drawn) := by simp only [ticksAnswer, h]

theorem enabledAnswer_of_nil {s : State} (h : s.answers = []) :
    enabledAnswer s = .next (Config.freeEnabled s.drawn) := by simp only [enabledAnswer, h]

theorem rateBitAnswer_of_nil {s : State} (h : s.answers = []) :
    rateBitAnswer s = .next (Config.freeRateBit s.drawn) := by simp only [rateBitAnswer, h]

theorem pressedAnswer_of_nil {s : State} (h : s.answers = []) :
    pressedAnswer s = .next ((Config.freeKeys s.drawn).map keyPressed) := by simp only [pressedAnswer, h]

theorem cartAnswer_of_nil {s : State} (h : s.answers = []) :
    cartAnswer s = .next (cartOfOption (Config.freeCart s.drawn)) := by simp only [cartAnswer, h]

theorem callAnswer_of_nil {s : State} (h : s.answers = []) :
    callAnswer s = .next (Config.freePortOps s.drawn) := by simp only [callAnswer, h]

/-- Whatever pairs the input source answers, they are within the contract, or the query faults (R69). -/
theorem pressedAnswer_inContract {s : State} {ps : List Pressed} (h : pressedAnswer s = .next ps) :
    ∀ p ∈ ps, inContract p = true := by
  simp only [pressedAnswer] at h
  split at h
  · cases h
    simp only [List.mem_map]
    rintro p ⟨⟨b, k⟩, -, rfl⟩
    revert b k; decide
  · split at h
    · next hall => cases h; exact List.all_eq_true.mp hall
    · cases h
  · cases h

/-! ## Calls -/

/-- A call that completes records itself and runs what the device issues, at the call point. -/
theorem call_eq_next {c : DeviceCall} {s u : State} :
    call c s = .next u ↔
      ∃ ops, callAnswer s = .next ops ∧ u = runPortOps ops (record (.called c) (consume s)) := by
  rw [call, andThen_eq_next]
  constructor
  · rintro ⟨ops, ho, h⟩; exact ⟨ops, ho, by cases h; rfl⟩
  · rintro ⟨ops, ho, rfl⟩; exact ⟨ops, ho, rfl⟩

theorem call_of_answer {c : DeviceCall} {s : State} {ops : List PortOp} (h : callAnswer s = .next ops) :
    call c s = .next (runPortOps ops (record (.called c) (consume s))) := by
  rw [call, h]; rfl

/-- `callIf` is the pseudocode's `if b: call c`. -/
theorem callIf_eq (b : Bool) (c : DeviceCall) (s : State) :
    callIf b c s = if b then call c s else .next s := by
  cases h : s.answers with
  | nil =>
    cases b
    · cases s; cases h; rfl
    · simp [callIf, call, callAnswer, h, runPortOps, record, consume]
  | cons a as => simp [callIf, h]

/-- A list is one of device-port transactions exactly when it is read as one (R119). -/
theorem portOpsOf_eq_none {txns : List Instr} :
    portOpsOf txns = none ↔ ∃ i ∈ txns, portOpOf i = none := by
  induction txns with
  | nil => simp [portOpsOf]
  | cons i is ih =>
    simp only [portOpsOf, List.mem_cons, exists_eq_or_imp, ← ih]
    cases portOpOf i <;> cases portOpsOf is <;> simp

/-- A list of device-port transactions written as instructions is read as that list (R119). -/
@[simp] theorem portOpsOf_map_instrOf (ops : List PortOp) : portOpsOf (ops.map instrOf) = some ops := by
  induction ops with
  | nil => rfl
  | cons o os ih => cases o <;> simp [portOpsOf, portOpOf, instrOf, ih]

/-! ## The cartridge loader -/

theorem loadCartridge_eq_next {s u : State} :
    loadCartridge s = .next u ↔ ∃ cart, cartAnswer s = .next cart ∧
      u = { record (.asked .cartRead) (consume s) with mem := Memory.load s.mem cart } := by
  rw [loadCartridge, andThen_eq_next]
  constructor
  · rintro ⟨r, hr, h⟩
    obtain ⟨cart, hc, rfl⟩ := ask_eq_next.mp hr
    exact ⟨cart, hc, by cases h; rfl⟩
  · rintro ⟨cart, hc, rfl⟩
    exact ⟨_, ask_eq_next.mpr ⟨cart, hc, rfl⟩, rfl⟩

/-- The loader's bulk write stays below 0x8000, so the primitive of R39 does not fault there (R95). -/
theorem memWriteBytes_load (bytes : List Byte) (s : State) :
    memWriteBytes 0 (bytes.take cartWindow) s = .next { s with mem := Memory.load s.mem (.image bytes) } := by
  rw [memWriteBytes, if_pos (by simp only [List.length_take, cartWindow]; omega)]
  rfl

/-! ## Reading what an operation left -/

@[simp] theorem memRead_memWrite {s : State} (hs : Memory.wf s.mem = true) (a b : Addr) (v : Byte) :
    memRead b (memWrite a v s) = if b = a then v else memRead b s := Memory.read_write hs a b v

@[simp] theorem memRead_regWrite {s : State} (hs : Memory.wf s.mem = true) (id : RegId) (b : Addr) (v : Byte) :
    memRead b (regWrite id v s) = if b = regAddr id then v else memRead b s :=
  Memory.read_regWrite hs id b v

theorem regRead_eq (id : RegId) (s : State) : regRead id s = memRead (regAddr id) s ||| forceHigh id := rfl

theorem regWriteIf_eq (c : Bool) (id : RegId) (v : Byte) (s : State) :
    regWriteIf c id v s = if c then regWrite id v s else s := by
  cases c <;> rfl

/-! ## The program -/

/-- The word placed at the position is the next one (10_state.md R15). -/
theorem placeWord_get (program : List Word) (pos : Nat) (w : Word) :
    (placeWord program pos w)[pos]? = some w := by
  have hlen : (program.take pos ++ List.replicate (pos - program.length) (0 : Word)).length = pos := by
    simp only [List.length_append, List.length_take, List.length_replicate]; omega
  rw [placeWord, List.getElem?_append_right (by omega), hlen]
  simp

end Sys2Proof.Machine
end

