-- ==== Sys2Proof/Laws/Quirks.lean ====
section
/-! SUPPORT. What the controlled writes can do to memory and to the rest of the state, said once. -/

namespace Sys2Proof.Machine

/-- `u` differs from `s` at most in MEM, in events appended and in answers used. -/
structure Frame (s u : State) : Prop where
  transcript : u.transcript = s.transcript
  readData : u.readData = s.readData
  events : ∃ es, u.events = s.events ++ es
  answers : ∃ n, u.answers = s.answers.drop n
  mCycleTicks : u.mCycleTicks = s.mCycleTicks
  program : u.program = s.program
  pos : u.pos = s.pos

theorem Frame.refl (s : State) : Frame s s :=
  ⟨rfl, rfl, ⟨[], by simp⟩, ⟨0, by simp⟩, rfl, rfl, rfl⟩

theorem Frame.trans {s t u : State} (h : Frame s t) (h' : Frame t u) : Frame s u := by
  obtain ⟨a1, a2, ⟨es, a3⟩, ⟨n, a4⟩, a5, a6, a7⟩ := h
  obtain ⟨b1, b2, ⟨fs, b3⟩, ⟨k, b4⟩, b5, b6, b7⟩ := h'
  exact ⟨b1.trans a1, b2.trans a2, ⟨es ++ fs, by rw [b3, a3, List.append_assoc]⟩,
    ⟨n + k, by rw [b4, a4, List.drop_drop]⟩, b5.trans a5, b6.trans a6, b7.trans a7⟩

theorem regWrite_frame (id : RegId) (v : Byte) (s : State) : Frame s (regWrite id v s) :=
  ⟨rfl, rfl, ⟨[], by simp⟩, ⟨0, by simp⟩, rfl, rfl, rfl⟩

theorem regWriteIf_frame (c : Bool) (id : RegId) (v : Byte) (s : State) : Frame s (regWriteIf c id v s) :=
  ⟨rfl, rfl, ⟨[], by simp⟩, ⟨0, by simp⟩, rfl, rfl, rfl⟩

theorem memWrite_frame (a : Addr) (v : Byte) (s : State) : Frame s (memWrite a v s) :=
  ⟨rfl, rfl, ⟨[], by simp⟩, ⟨0, by simp⟩, rfl, rfl, rfl⟩

theorem consume_frame (s : State) : Frame s (consume s) :=
  ⟨rfl, rfl, ⟨[], by simp⟩, ⟨1, by simp⟩, rfl, rfl, rfl⟩

theorem record_frame (e : Event) (s : State) : Frame s (record e s) :=
  ⟨rfl, rfl, ⟨[e], rfl⟩, ⟨0, by simp⟩, rfl, rfl, rfl⟩

theorem runPortOps_frame (ops : List PortOp) (s : State) : Frame s (runPortOps ops s) :=
  ⟨rfl, rfl, ⟨_, rfl⟩, ⟨0, by simp⟩, rfl, rfl, rfl⟩

theorem ask_frame {α : Type} {q : Query} {answer : State → Result α} {s u : State} {a : α}
    (h : ask q answer s = .next (a, u)) : Frame s u := by
  obtain ⟨b, -, hb⟩ := ask_eq_next.mp h
  cases hb
  exact (consume_frame s).trans (record_frame _ _)

/-- A query leaves MEM alone (60_exceptions.md R106). -/
theorem ask_mem {α : Type} {q : Query} {answer : State → Result α} {s u : State} {a : α}
    (h : ask q answer s = .next (a, u)) : u.mem = s.mem := by
  obtain ⟨b, -, hb⟩ := ask_eq_next.mp h
  cases hb; rfl

theorem call_frame {c : DeviceCall} {s u : State} (h : call c s = .next u) : Frame s u := by
  obtain ⟨ops, -, rfl⟩ := call_eq_next.mp h
  exact ((consume_frame s).trans (record_frame _ _)).trans (runPortOps_frame _ _)

theorem callIf_frame {b : Bool} {c : DeviceCall} {s u : State} (h : callIf b c s = .next u) : Frame s u := by
  rw [callIf_eq] at h
  split at h
  · exact call_frame h
  · cases h; exact Frame.refl s

theorem loadCartridge_frame {s u : State} (h : loadCartridge s = .next u) : Frame s u := by
  obtain ⟨cart, -, rfl⟩ := loadCartridge_eq_next.mp h
  have := (consume_frame s).trans (record_frame (.asked .cartRead) _)
  exact ⟨this.transcript, this.readData, this.events, this.answers, this.mCycleTicks, this.program, this.pos⟩

theorem sampleTickSignal_eq_next {s u : State} {b : Bool} (h : sampleTickSignal s = .next (b, u)) :
    Frame s u ∧ u.mem = s.mem := by
  simp only [sampleTickSignal, andThen_eq_next] at h
  obtain ⟨⟨e, t⟩, he, ⟨r, t'⟩, hr, h⟩ := h
  cases h
  exact ⟨(ask_frame he).trans (ask_frame hr), (ask_mem hr).trans (ask_mem he)⟩

/-- Both queries of the tick-rate signal, asked in order (R75). -/
theorem sampleTickSignal_of_answers {s : State} {e r : Bool} (he : enabledAnswer s = .next e)
    (hr : rateBitAnswer (consume s) = .next r) :
    sampleTickSignal s = .next (tickSignal e r,
      record (.asked .getTickRateBit) (consume (record (.asked .isTimerEnabled) (consume s)))) := by
  have hr' : rateBitAnswer (record (.asked .isTimerEnabled) (consume s)) = .next r := by
    rw [← hr]; exact rateBitAnswer_congr rfl rfl
  rw [sampleTickSignal, ask_of_answer he, andThen_next]
  dsimp only
  rw [ask_of_answer hr']
  rfl

theorem cReadJoyp_frame {s u : State} {v : Byte} (h : cReadJoyp s = .next (v, u)) :
    Frame s u ∧ u.mem = s.mem := by
  simp only [cReadJoyp, andThen_eq_next] at h
  obtain ⟨⟨ps, t⟩, ht, h⟩ := h
  cases h
  exact ⟨ask_frame ht, ask_mem ht⟩

/-- A controlled write changes MEM, appends events and uses answers; nothing else. -/
theorem cWrite_frame {id : RegId} {v : Byte} {s u : State} (h : cWrite id v s = .next u) : Frame s u := by
  cases id
  case DIV | DIVLSB =>
    simp only [cWrite, cWriteDivider, andThen_eq_next] at h
    obtain ⟨t, ht, h⟩ := h
    cases h
    exact (call_frame ht).trans ((regWrite_frame _ _ _).trans (regWrite_frame _ _ _))
  case TIMA =>
    simp only [cWrite, cWriteTima, andThen_eq_next] at h
    obtain ⟨⟨n, t⟩, ht, h⟩ := h
    exact (ask_frame ht).trans ((regWriteIf_frame _ _ _ t).trans (callIf_frame h))
  case TMA =>
    simp only [cWrite, cWriteTma, andThen_eq_next] at h
    obtain ⟨⟨n, t⟩, ht, h⟩ := h
    exact (regWrite_frame _ _ s).trans ((ask_frame ht).trans (callIf_frame h))
  case IF =>
    simp only [cWrite, cWriteIf, andThen_eq_next] at h
    obtain ⟨⟨n, t⟩, ht, h⟩ := h
    exact (regWrite_frame _ _ s).trans ((ask_frame ht).trans (callIf_frame h))
  case TAC =>
    simp only [cWrite, cWriteTac, andThen_eq_next] at h
    obtain ⟨⟨b0, t⟩, ht, ⟨b1, t'⟩, ht', h⟩ := h
    exact (sampleTickSignal_eq_next ht).1.trans
      ((regWrite_frame _ _ t).trans ((sampleTickSignal_eq_next ht').1.trans (callIf_frame h)))
  case LCDC =>
    simp only [cWrite, cWriteLcdc, andThen_eq_next] at h
    obtain ⟨t, ht, t', ht', h⟩ := h
    cases h
    exact (callIf_frame ht).trans ((callIf_frame ht').trans (regWrite_frame _ _ _))
  case DMA =>
    simp only [cWrite, cWriteDma] at h
    split at h
    · exact (regWrite_frame _ _ s).trans (call_frame h)
    · cases h; exact Frame.refl s
  case BOOT_ROM_DISABLE =>
    simp only [cWrite, cWriteBootRomDisable] at h
    split at h
    · exact (regWrite_frame _ _ s).trans (loadCartridge_frame h)
    · cases h; exact Frame.refl s
  all_goals
    cases h
    exact regWrite_frame _ _ s

/-! ## What a controlled write can do to memory -/

/-- What every register store keeps, device-port transactions keep. -/
theorem Memory.afterPortOps_induct {P : Memory → Prop}
    (hreg : ∀ id v m, P m → P (Memory.regWrite m id v)) (ops : List PortOp) {m : Memory} (hm : P m) :
    P (Memory.afterPortOps ops m) := by
  induction ops generalizing m with
  | nil => exact hm
  | cons o ops ih =>
    cases o with
    | get id => exact ih hm
    | set id v => exact ih (hreg id v m hm)

theorem call_mem {P : Memory → Prop} (hreg : ∀ id v m, P m → P (Memory.regWrite m id v))
    {c : DeviceCall} {s u : State} (h : call c s = .next u) (hs : P s.mem) : P u.mem := by
  obtain ⟨ops, -, rfl⟩ := call_eq_next.mp h
  exact Memory.afterPortOps_induct hreg ops hs

theorem callIf_mem {P : Memory → Prop} (hreg : ∀ id v m, P m → P (Memory.regWrite m id v))
    {b : Bool} {c : DeviceCall} {s u : State} (h : callIf b c s = .next u) (hs : P s.mem) : P u.mem := by
  rw [callIf_eq] at h
  split at h
  · exact call_mem hreg h hs
  · cases h; exact hs

/-- The controlled write of every register but the boot latch keeps what register stores keep. -/
theorem cWrite_mem {P : Memory → Prop} (hreg : ∀ id v m, P m → P (Memory.regWrite m id v))
    {id : RegId} {v : Byte} {s u : State} (hid : id ≠ .BOOT_ROM_DISABLE) (h : cWrite id v s = .next u)
    (hs : P s.mem) : P u.mem := by
  cases id
  case BOOT_ROM_DISABLE => exact absurd rfl hid
  case DIV | DIVLSB =>
    simp only [cWrite, cWriteDivider, andThen_eq_next] at h
    obtain ⟨t, ht, h⟩ := h
    cases h
    exact hreg _ _ _ (hreg _ _ _ (call_mem hreg ht hs))
  case TIMA =>
    simp only [cWrite, cWriteTima, andThen_eq_next] at h
    obtain ⟨⟨n, t⟩, ht, h⟩ := h
    refine callIf_mem hreg h ?_
    rw [regWriteIf_eq]
    split
    · exact hreg _ _ _ (by rw [ask_mem ht]; exact hs)
    · rw [ask_mem ht]; exact hs
  case TMA =>
    simp only [cWrite, cWriteTma, andThen_eq_next] at h
    obtain ⟨⟨n, t⟩, ht, h⟩ := h
    exact callIf_mem hreg h (by rw [ask_mem ht]; exact hreg _ _ _ hs)
  case IF =>
    simp only [cWrite, cWriteIf, andThen_eq_next] at h
    obtain ⟨⟨n, t⟩, ht, h⟩ := h
    exact callIf_mem hreg h (by rw [ask_mem ht]; exact hreg _ _ _ hs)
  case TAC =>
    simp only [cWrite, cWriteTac, andThen_eq_next] at h
    obtain ⟨⟨b0, t⟩, ht, ⟨b1, t'⟩, ht', h⟩ := h
    refine callIf_mem hreg h ?_
    rw [(sampleTickSignal_eq_next ht').2]
    exact hreg _ _ _ (by rw [(sampleTickSignal_eq_next ht).2]; exact hs)
  case LCDC =>
    simp only [cWrite, cWriteLcdc, andThen_eq_next] at h
    obtain ⟨t, ht, t', ht', h⟩ := h
    cases h
    exact hreg _ _ _ (callIf_mem hreg ht' (callIf_mem hreg ht hs))
  case DMA =>
    simp only [cWrite, cWriteDma] at h
    split at h
    · exact call_mem hreg h (hreg _ _ _ hs)
    · cases h; exact hs
  all_goals
    cases h
    exact hreg _ _ _ hs

/-- The controlled write of the boot latch stores 0x01 and loads, at its transition, and else does nothing (R82). -/
theorem cWriteBootRomDisable_eq_next {v : Byte} {s u : State}
    (h : cWriteBootRomDisable v s = .next u) :
    (latchTransition s v = false ∧ u = s) ∨
      (latchTransition s v = true ∧ ∃ cart, cartAnswer s = .next cart ∧
        u.mem = Memory.load (Memory.regWrite s.mem .BOOT_ROM_DISABLE 0x01) cart) := by
  rw [cWriteBootRomDisable] at h
  split at h
  · next ht =>
    obtain ⟨cart, hc, rfl⟩ := loadCartridge_eq_next.mp h
    exact .inr ⟨ht, cart, hc, rfl⟩
  · next ht => cases h; exact .inl ⟨by simpa using ht, rfl⟩

end Sys2Proof.Machine
end

