-- ==== Sys2Proof/Laws/Dispatch.lean ====
section
/-! SUPPORT. The rows of a register run its controlled read and write; what a step is. -/

namespace Sys2Proof.Machine

/-- Row `BUS_RD.<id>` runs the controlled read (42_mmu_bus.md R83). -/
theorem exec_busRdRow (id : RegId) (s : State) :
    exec (busRdRow id) s = andThen (cRead id s) fun r => returnByte r.1 r.2 := by
  cases id <;> rfl

/-- Row `BUS_WR.<id>` runs the controlled write (42_mmu_bus.md R87). -/
theorem exec_busWrRow (id : RegId) (v : Byte) (s : State) :
    exec (busWrRow id v) s = andThen (cWrite id v s) returnNone := by
  cases id <;> rfl

/-- Every instruction is a row of a register, or one of the nine others. -/
theorem instr_cases {P : Instr → Prop} (i : Instr)
    (rd : ∀ id, P (busRdRow id)) (wr : ∀ id v, P (busWrRow id v)) (mem : ∀ a, P (.busRdMem a))
    (rom : ∀ a v, P (.busWrRom a v)) (serial : ∀ v, P (.busWrSerial v))
    (echoA : ∀ a v, P (.busWrEchoA a v)) (echoB : ∀ a v, P (.busWrEchoB a v))
    (plain : ∀ a v, P (.busWrPlain a v)) (get : ∀ id, P (.regGet id)) (set : ∀ id v, P (.regSet id v))
    (load : P .loadCart) : P i := by
  cases i
  case busRdMem a => exact mem a
  case busWrRom a v => exact rom a v
  case busWrSerial v => exact serial v
  case busWrEchoA a v => exact echoA a v
  case busWrEchoB a v => exact echoB a v
  case busWrPlain a v => exact plain a v
  case regGet id => exact get id
  case regSet id v => exact set id v
  case loadCart => exact load
  case busRdJoyp => exact rd .JOYP
  case busRdDiv => exact rd .DIV
  case busRdDivlsb => exact rd .DIVLSB
  case busRdTima => exact rd .TIMA
  case busRdTma => exact rd .TMA
  case busRdTac => exact rd .TAC
  case busRdIf => exact rd .IF
  case busRdIe => exact rd .IE
  case busRdLcdc => exact rd .LCDC
  case busRdStat => exact rd .STAT
  case busRdScy => exact rd .SCY
  case busRdScx => exact rd .SCX
  case busRdLy => exact rd .LY
  case busRdLyc => exact rd .LYC
  case busRdBgp => exact rd .BGP
  case busRdObp0 => exact rd .OBP0
  case busRdObp1 => exact rd .OBP1
  case busRdDma => exact rd .DMA
  case busRdBootRomDisable => exact rd .BOOT_ROM_DISABLE
  case busWrJoyp v => exact wr .JOYP v
  case busWrDiv v => exact wr .DIV v
  case busWrDivlsb v => exact wr .DIVLSB v
  case busWrTima v => exact wr .TIMA v
  case busWrTma v => exact wr .TMA v
  case busWrTac v => exact wr .TAC v
  case busWrIf v => exact wr .IF v
  case busWrIe v => exact wr .IE v
  case busWrLcdc v => exact wr .LCDC v
  case busWrStat v => exact wr .STAT v
  case busWrScy v => exact wr .SCY v
  case busWrScx v => exact wr .SCX v
  case busWrLy v => exact wr .LY v
  case busWrLyc v => exact wr .LYC v
  case busWrBgp v => exact wr .BGP v
  case busWrObp0 v => exact wr .OBP0 v
  case busWrObp1 v => exact wr .OBP1 v
  case busWrDma v => exact wr .DMA v
  case busWrBootRomDisable v => exact wr .BOOT_ROM_DISABLE v

/-- The transaction that writes the transcript. -/
theorem execBusWrSerial_eq (v : Byte) (s : State) :
    execBusWrSerial v s = returnNone (busStore serialAddr v (appendTranscript v s)) := by
  simp only [execBusWrSerial, busWriteFromDispatch, regAt_serial, andThen_next]

/-- No transaction changes the configuration, the program or the position; events are appended and answers used. -/
theorem exec_keeps {i : Instr} {s u : State} (h : exec i s = .next u) :
    u.mCycleTicks = s.mCycleTicks ∧ u.program = s.program ∧ u.pos = s.pos ∧
      (∃ es, u.events = s.events ++ es) ∧ (∃ n, u.answers = s.answers.drop n) := by
  have of_frame : ∀ {t : State}, Frame s t → t.mCycleTicks = s.mCycleTicks ∧ t.program = s.program ∧
      t.pos = s.pos ∧ (∃ es, t.events = s.events ++ es) ∧ (∃ n, t.answers = s.answers.drop n) :=
    fun f => ⟨f.mCycleTicks, f.program, f.pos, f.events, f.answers⟩
  have same : Frame s s := Frame.refl s
  revert h
  refine instr_cases (P := fun i => exec i s = .next u → _) i ?rd ?wr ?mem ?rom ?serial ?echoA ?echoB ?plain ?get ?set ?load
  case rd =>
    intro id h
    rw [exec_busRdRow, andThen_eq_next] at h
    obtain ⟨⟨v, t⟩, ht, h⟩ := h
    cases h
    rw [cRead] at ht
    split at ht
    · exact (of_frame (cReadJoyp_frame ht).1 :)
    · cases ht; exact (of_frame same :)
  case wr =>
    intro id v h
    rw [exec_busWrRow, andThen_eq_next] at h
    obtain ⟨t, ht, h⟩ := h
    cases h
    exact (of_frame (cWrite_frame ht) :)
  case serial =>
    intro v h
    rw [show exec (.busWrSerial v) s = execBusWrSerial v s from rfl, execBusWrSerial_eq] at h
    cases h
    exact (of_frame same :)
  case load =>
    intro h
    obtain ⟨t, ht, h⟩ := andThen_eq_next.mp h
    cases h
    exact (of_frame (loadCartridge_frame ht) :)
  all_goals
    intros
    rename_i h
    cases h
    exact (of_frame same :)

end Sys2Proof.Machine
end

