-- ==== Sys2Proof/Laws/Encoding.lean ====
section
/-! SUPPORT. The fields of a word and the words built from fields. -/

namespace Sys2Proof

/-! ## Fields as numbers (30_encoding.md R54) -/

theorem fieldOp_toNat (w : Word) : (fieldOp w).toNat = w.toNat / 2 ^ 28 := by
  simp only [fieldOp, BitVec.extractLsb'_toNat, Nat.shiftRight_eq_div_pow]
  have := w.isLt
  omega

theorem fieldRsv_toNat (w : Word) : (fieldRsv w).toNat = w.toNat / 2 ^ 24 % 16 := by
  simp only [fieldRsv, BitVec.extractLsb'_toNat, Nat.shiftRight_eq_div_pow]

theorem fieldAddr_toNat (w : Word) : (fieldAddr w).toNat = w.toNat / 2 ^ 8 % 2 ^ 16 := by
  simp only [fieldAddr, BitVec.extractLsb'_toNat, Nat.shiftRight_eq_div_pow]

theorem fieldRsv2_toNat (w : Word) : (fieldRsv2 w).toNat = w.toNat / 2 ^ 13 % 2 ^ 11 := by
  simp only [fieldRsv2, BitVec.extractLsb'_toNat, Nat.shiftRight_eq_div_pow]

theorem fieldId_toNat (w : Word) : (fieldId w).toNat = w.toNat / 2 ^ 8 % 32 := by
  simp only [fieldId, BitVec.extractLsb'_toNat, Nat.shiftRight_eq_div_pow]

theorem fieldData_toNat (w : Word) : (fieldData w).toNat = w.toNat % 256 := by
  simp only [fieldData, BitVec.extractLsb'_toNat, Nat.shiftRight_eq_div_pow, Nat.pow_zero, Nat.div_one]

theorem wordOf_toNat (op : BitVec 4) (mid : Addr) (data : Byte) :
    (wordOf op mid data).toNat = op.toNat * 2 ^ 28 + mid.toNat * 2 ^ 8 + data.toNat := by
  simp only [wordOf, BitVec.toNat_ofNat]
  have := op.isLt; have := mid.isLt; have := data.isLt
  omega

/-! ## The fields of a word built from fields -/

@[simp] theorem fieldOp_wordOf (op : BitVec 4) (mid : Addr) (data : Byte) :
    fieldOp (wordOf op mid data) = op := by
  apply BitVec.eq_of_toNat_eq
  rw [fieldOp_toNat, wordOf_toNat]
  have := mid.isLt; have := data.isLt
  omega

@[simp] theorem fieldRsv_wordOf (op : BitVec 4) (mid : Addr) (data : Byte) :
    fieldRsv (wordOf op mid data) = 0 := by
  apply BitVec.eq_of_toNat_eq
  rw [fieldRsv_toNat, wordOf_toNat]
  have := mid.isLt; have := data.isLt
  simp only [BitVec.ofNat_eq_ofNat, BitVec.toNat_ofNat]
  omega

@[simp] theorem fieldAddr_wordOf (op : BitVec 4) (mid : Addr) (data : Byte) :
    fieldAddr (wordOf op mid data) = mid := by
  apply BitVec.eq_of_toNat_eq
  rw [fieldAddr_toNat, wordOf_toNat]
  have := mid.isLt; have := data.isLt
  omega

@[simp] theorem fieldData_wordOf (op : BitVec 4) (mid : Addr) (data : Byte) :
    fieldData (wordOf op mid data) = data := by
  apply BitVec.eq_of_toNat_eq
  rw [fieldData_toNat, wordOf_toNat]
  have := data.isLt
  omega

@[simp] theorem fieldRsv2_wordOf_id (op : BitVec 4) (id : RegId) (data : Byte) :
    fieldRsv2 (wordOf op (midOfId id) data) = 0 := by
  apply BitVec.eq_of_toNat_eq
  rw [fieldRsv2_toNat, wordOf_toNat]
  have := (regCode id).isLt; have := data.isLt
  simp only [midOfId, BitVec.toNat_setWidth, BitVec.ofNat_eq_ofNat, BitVec.toNat_ofNat]
  omega

@[simp] theorem fieldId_wordOf_id (op : BitVec 4) (id : RegId) (data : Byte) :
    fieldId (wordOf op (midOfId id) data) = regCode id := by
  apply BitVec.eq_of_toNat_eq
  rw [fieldId_toNat, wordOf_toNat]
  have := (regCode id).isLt; have := data.isLt
  simp only [midOfId, BitVec.toNat_setWidth]
  omega

/-- A word with `RSV` 0 is built from its fields. -/
theorem wordOf_fields {w : Word} (h : fieldRsv w = 0) :
    wordOf (fieldOp w) (fieldAddr w) (fieldData w) = w := by
  apply BitVec.eq_of_toNat_eq
  rw [wordOf_toNat, fieldOp_toNat, fieldAddr_toNat, fieldData_toNat]
  have h' := congrArg BitVec.toNat h
  rw [fieldRsv_toNat] at h'
  simp only [BitVec.ofNat_eq_ofNat, BitVec.toNat_ofNat] at h'
  omega

/-! ## Codes and rows -/

@[simp] theorem regOfCode_regCode (id : RegId) : regOfCode (regCode id) = some id := by cases id <;> rfl

/-- A code that names a register is that register's code (R57). -/
theorem regCode_of_regOfCode {c : BitVec 5} {id : RegId} (h : regOfCode c = some id) : regCode id = c := by
  have key : ∀ n : Fin 32, ∀ id, regOfCode (BitVec.ofNat 5 n) = some id → regCode id = BitVec.ofNat 5 n := by
    intro n id h
    cases id <;> revert n <;> decide
  have hc : BitVec.ofNat 5 (⟨c.toNat, c.isLt⟩ : Fin 32) = c := by simp
  have := key ⟨c.toNat, c.isLt⟩ id
  rw [hc] at this
  exact this h

/-- The codes without a register are 19..31 (R57, R58). -/
theorem regOfCode_eq_none {c : BitVec 5} : regOfCode c = none ↔ 19 ≤ c.toNat := by
  simp [regOfCode, allRegIds]

@[simp] theorem decodeRead_regAddr (id : RegId) : decodeRead (regAddr id) = busRdRow id := by
  simp only [decodeRead, Machine.regAt_regAddr]

@[simp] theorem decodeWrite_regAddr (id : RegId) (v : Byte) : decodeWrite (regAddr id) v = busWrRow id v := by
  cases id <;> rfl

@[simp] theorem encode_busRdRow (id : RegId) : encode (busRdRow id) = wordRead (regAddr id) := by
  cases id <;> rfl

@[simp] theorem encode_busWrRow (id : RegId) (v : Byte) :
    encode (busWrRow id v) = wordWrite (regAddr id) v := by
  cases id <;> rfl

@[simp] theorem wellFormed_busRdRow (id : RegId) : wellFormed (busRdRow id) = true := by cases id <;> rfl

@[simp] theorem wellFormed_busWrRow (id : RegId) (v : Byte) : wellFormed (busWrRow id v) = true := by
  cases id <;> rfl

/-! ## Decoding the words of each format -/

@[simp] theorem decode_wordRead (a : Addr) : decode (wordRead a) = .ok (decodeRead a) := by
  simp [decode, wordRead]

@[simp] theorem decode_wordWrite (a : Addr) (v : Byte) : decode (wordWrite a v) = .ok (decodeWrite a v) := by
  simp [decode, wordWrite]

@[simp] theorem decode_wordGet (id : RegId) : decode (wordGet id) = .ok (.regGet id) := by
  simp [decode, wordGet]

@[simp] theorem decode_wordSet (id : RegId) (v : Byte) : decode (wordSet id v) = .ok (.regSet id v) := by
  simp [decode, wordSet]

end Sys2Proof
end

