-- ==== Sys2Proof/Laws/PerInstr.lean ====
section
/-! SUPPORT. Family `TableRow`: under the `mask` of its row of spec/opcode_table.json, the word of every well-formed
transaction is the row's `match`. The numbers are the table's, written out row by row. -/

namespace Sys2Proof.Laws.TableRow

/-! ## A word under a mask -/

theorem wordOf_eq_append (op : BitVec 4) (mid : Addr) (data : Byte) :
    wordOf op mid data = op ++ 0#4 ++ mid ++ data := by
  apply BitVec.eq_of_toNat_eq
  rw [wordOf_toNat]
  simp only [BitVec.toNat_append]
  rw [← Nat.shiftLeft_add_eq_or_of_lt data.isLt, ← Nat.shiftLeft_add_eq_or_of_lt mid.isLt,
    ← Nat.shiftLeft_add_eq_or_of_lt (BitVec.isLt 0#4)]
  simp only [Nat.shiftLeft_eq, BitVec.toNat_ofNat]
  omega

/-- All but `DATA`. -/
theorem wordOf_mask_data (op : BitVec 4) (mid : Addr) (data : Byte) :
    wordOf op mid data &&& 0xFFFFFF00#32 = wordOf op mid 0 := by
  rw [wordOf_eq_append, wordOf_eq_append]
  apply BitVec.eq_of_getLsbD_eq
  intro k hk
  simp only [BitVec.getLsbD_and, BitVec.getLsbD_append]
  interval_cases k <;> simp

/-- All but `ADDR`. -/
theorem wordOf_mask_addr (op : BitVec 4) (mid : Addr) (data : Byte) :
    wordOf op mid data &&& 0xFF0000FF#32 = wordOf op 0 data := by
  rw [wordOf_eq_append, wordOf_eq_append]
  apply BitVec.eq_of_getLsbD_eq
  intro k hk
  simp only [BitVec.getLsbD_and, BitVec.getLsbD_append]
  interval_cases k <;> simp

/-- `OP` and `RSV`. -/
theorem wordOf_mask_op (op : BitVec 4) (mid : Addr) (data : Byte) :
    wordOf op mid data &&& 0xFF000000#32 = wordOf op 0 0 := by
  rw [wordOf_eq_append, wordOf_eq_append]
  apply BitVec.eq_of_getLsbD_eq
  intro k hk
  simp only [BitVec.getLsbD_and, BitVec.getLsbD_append]
  interval_cases k <;> simp

/-- `OP`, `RSV` and the top address bit, for an address below 0x8000. -/
theorem wordOf_mask_rom (op : BitVec 4) {mid : Addr} (data : Byte) (h : mid.toNat ≤ 0x7FFF) :
    wordOf op mid data &&& 0xFF800000#32 = wordOf op 0 0 := by
  have h15 : mid[15] = false := by
    rw [← BitVec.getLsbD_eq_getElem, BitVec.getLsbD, Nat.testBit_eq_false_of_lt]; omega
  rw [wordOf_eq_append, wordOf_eq_append]
  apply BitVec.eq_of_getLsbD_eq
  intro k hk
  simp only [BitVec.getLsbD_and, BitVec.getLsbD_append]
  interval_cases k <;> simp [h15]

/-- All but `ID`. -/
theorem wordOf_mask_id (op : BitVec 4) (id : RegId) (data : Byte) :
    wordOf op (midOfId id) data &&& 0xFFFFE0FF#32 = wordOf op 0 data := by
  rw [wordOf_eq_append, wordOf_eq_append]
  apply BitVec.eq_of_getLsbD_eq
  intro k hk
  simp only [BitVec.getLsbD_and, BitVec.getLsbD_append, midOfId, BitVec.getLsbD_setWidth]
  interval_cases k <;> simp

/-- All but `ID` and `DATA`. -/
theorem wordOf_mask_id_data (op : BitVec 4) (id : RegId) (data : Byte) :
    wordOf op (midOfId id) data &&& 0xFFFFE000#32 = wordOf op 0 0 := by
  rw [wordOf_eq_append, wordOf_eq_append]
  apply BitVec.eq_of_getLsbD_eq
  intro k hk
  simp only [BitVec.getLsbD_and, BitVec.getLsbD_append, midOfId, BitVec.getLsbD_setWidth]
  interval_cases k <;> simp

/-! ## The table -/

/-- Column `mask` of a transaction's row. -/
def rowMask : Instr → Word
  | .busRdMem _ => 0xFF0000FF
  | .busRdJoyp => 0xFFFFFFFF
  | .busRdDiv => 0xFFFFFFFF
  | .busRdDivlsb => 0xFFFFFFFF
  | .busRdTima => 0xFFFFFFFF
  | .busRdTma => 0xFFFFFFFF
  | .busRdTac => 0xFFFFFFFF
  | .busRdIf => 0xFFFFFFFF
  | .busRdIe => 0xFFFFFFFF
  | .busRdLcdc => 0xFFFFFFFF
  | .busRdStat => 0xFFFFFFFF
  | .busRdScy => 0xFFFFFFFF
  | .busRdScx => 0xFFFFFFFF
  | .busRdLy => 0xFFFFFFFF
  | .busRdLyc => 0xFFFFFFFF
  | .busRdBgp => 0xFFFFFFFF
  | .busRdObp0 => 0xFFFFFFFF
  | .busRdObp1 => 0xFFFFFFFF
  | .busRdDma => 0xFFFFFFFF
  | .busRdBootRomDisable => 0xFFFFFFFF
  | .busWrRom _ _ => 0xFF800000
  | .busWrSerial _ => 0xFFFFFF00
  | .busWrJoyp _ => 0xFFFFFF00
  | .busWrDiv _ => 0xFFFFFF00
  | .busWrDivlsb _ => 0xFFFFFF00
  | .busWrTima _ => 0xFFFFFF00
  | .busWrTma _ => 0xFFFFFF00
  | .busWrTac _ => 0xFFFFFF00
  | .busWrIf _ => 0xFFFFFF00
  | .busWrIe _ => 0xFFFFFF00
  | .busWrLcdc _ => 0xFFFFFF00
  | .busWrStat _ => 0xFFFFFF00
  | .busWrScy _ => 0xFFFFFF00
  | .busWrScx _ => 0xFFFFFF00
  | .busWrLy _ => 0xFFFFFF00
  | .busWrLyc _ => 0xFFFFFF00
  | .busWrBgp _ => 0xFFFFFF00
  | .busWrObp0 _ => 0xFFFFFF00
  | .busWrObp1 _ => 0xFFFFFF00
  | .busWrDma _ => 0xFFFFFF00
  | .busWrBootRomDisable _ => 0xFFFFFF00
  | .busWrEchoA _ _ => 0xFF000000
  | .busWrEchoB _ _ => 0xFF000000
  | .busWrPlain _ _ => 0xFF000000
  | .regGet _ => 0xFFFFE0FF
  | .regSet _ _ => 0xFFFFE000
  | .loadCart => 0xFFFFFFFF

/-- Column `match` of a transaction's row. -/
def rowMatch : Instr → Word
  | .busRdMem _ => 0x10000000
  | .busRdJoyp => 0x10FF0000
  | .busRdDiv => 0x10FF0400
  | .busRdDivlsb => 0x10FF0300
  | .busRdTima => 0x10FF0500
  | .busRdTma => 0x10FF0600
  | .busRdTac => 0x10FF0700
  | .busRdIf => 0x10FF0F00
  | .busRdIe => 0x10FFFF00
  | .busRdLcdc => 0x10FF4000
  | .busRdStat => 0x10FF4100
  | .busRdScy => 0x10FF4200
  | .busRdScx => 0x10FF4300
  | .busRdLy => 0x10FF4400
  | .busRdLyc => 0x10FF4500
  | .busRdBgp => 0x10FF4700
  | .busRdObp0 => 0x10FF4800
  | .busRdObp1 => 0x10FF4900
  | .busRdDma => 0x10FF4600
  | .busRdBootRomDisable => 0x10FF5000
  | .busWrRom _ _ => 0x20000000
  | .busWrSerial _ => 0x20FF0100
  | .busWrJoyp _ => 0x20FF0000
  | .busWrDiv _ => 0x20FF0400
  | .busWrDivlsb _ => 0x20FF0300
  | .busWrTima _ => 0x20FF0500
  | .busWrTma _ => 0x20FF0600
  | .busWrTac _ => 0x20FF0700
  | .busWrIf _ => 0x20FF0F00
  | .busWrIe _ => 0x20FFFF00
  | .busWrLcdc _ => 0x20FF4000
  | .busWrStat _ => 0x20FF4100
  | .busWrScy _ => 0x20FF4200
  | .busWrScx _ => 0x20FF4300
  | .busWrLy _ => 0x20FF4400
  | .busWrLyc _ => 0x20FF4500
  | .busWrBgp _ => 0x20FF4700
  | .busWrObp0 _ => 0x20FF4800
  | .busWrObp1 _ => 0x20FF4900
  | .busWrDma _ => 0x20FF4600
  | .busWrBootRomDisable _ => 0x20FF5000
  | .busWrEchoA _ _ => 0x20000000
  | .busWrEchoB _ _ => 0x20000000
  | .busWrPlain _ _ => 0x20000000
  | .regGet _ => 0x30000000
  | .regSet _ _ => 0x40000000
  | .loadCart => 0x50000000

/-- The word of the transaction is one of its row. -/
def Statement (i : Instr) : Prop := wellFormed i = true → encode i &&& rowMask i = rowMatch i

/-! ## Row by row -/

theorem busRdMem (addr : Addr) : Statement (.busRdMem addr) := fun _ => wordOf_mask_addr _ _ _
theorem busRdJoyp : Statement .busRdJoyp := fun _ => rfl
theorem busRdDiv : Statement .busRdDiv := fun _ => rfl
theorem busRdDivlsb : Statement .busRdDivlsb := fun _ => rfl
theorem busRdTima : Statement .busRdTima := fun _ => rfl
theorem busRdTma : Statement .busRdTma := fun _ => rfl
theorem busRdTac : Statement .busRdTac := fun _ => rfl
theorem busRdIf : Statement .busRdIf := fun _ => rfl
theorem busRdIe : Statement .busRdIe := fun _ => rfl
theorem busRdLcdc : Statement .busRdLcdc := fun _ => rfl
theorem busRdStat : Statement .busRdStat := fun _ => rfl
theorem busRdScy : Statement .busRdScy := fun _ => rfl
theorem busRdScx : Statement .busRdScx := fun _ => rfl
theorem busRdLy : Statement .busRdLy := fun _ => rfl
theorem busRdLyc : Statement .busRdLyc := fun _ => rfl
theorem busRdBgp : Statement .busRdBgp := fun _ => rfl
theorem busRdObp0 : Statement .busRdObp0 := fun _ => rfl
theorem busRdObp1 : Statement .busRdObp1 := fun _ => rfl
theorem busRdDma : Statement .busRdDma := fun _ => rfl
theorem busRdBootRomDisable : Statement .busRdBootRomDisable := fun _ => rfl
theorem busWrRom (addr : Addr) (v : Byte) : Statement (.busWrRom addr v) :=
  fun h => wordOf_mask_rom _ _ (of_decide_eq_true h)
theorem busWrSerial (v : Byte) : Statement (.busWrSerial v) := fun _ => wordOf_mask_data _ _ _
theorem busWrJoyp (v : Byte) : Statement (.busWrJoyp v) := fun _ => wordOf_mask_data _ _ _
theorem busWrDiv (v : Byte) : Statement (.busWrDiv v) := fun _ => wordOf_mask_data _ _ _
theorem busWrDivlsb (v : Byte) : Statement (.busWrDivlsb v) := fun _ => wordOf_mask_data _ _ _
theorem busWrTima (v : Byte) : Statement (.busWrTima v) := fun _ => wordOf_mask_data _ _ _
theorem busWrTma (v : Byte) : Statement (.busWrTma v) := fun _ => wordOf_mask_data _ _ _
theorem busWrTac (v : Byte) : Statement (.busWrTac v) := fun _ => wordOf_mask_data _ _ _
theorem busWrIf (v : Byte) : Statement (.busWrIf v) := fun _ => wordOf_mask_data _ _ _
theorem busWrIe (v : Byte) : Statement (.busWrIe v) := fun _ => wordOf_mask_data _ _ _
theorem busWrLcdc (v : Byte) : Statement (.busWrLcdc v) := fun _ => wordOf_mask_data _ _ _
theorem busWrStat (v : Byte) : Statement (.busWrStat v) := fun _ => wordOf_mask_data _ _ _
theorem busWrScy (v : Byte) : Statement (.busWrScy v) := fun _ => wordOf_mask_data _ _ _
theorem busWrScx (v : Byte) : Statement (.busWrScx v) := fun _ => wordOf_mask_data _ _ _
theorem busWrLy (v : Byte) : Statement (.busWrLy v) := fun _ => wordOf_mask_data _ _ _
theorem busWrLyc (v : Byte) : Statement (.busWrLyc v) := fun _ => wordOf_mask_data _ _ _
theorem busWrBgp (v : Byte) : Statement (.busWrBgp v) := fun _ => wordOf_mask_data _ _ _
theorem busWrObp0 (v : Byte) : Statement (.busWrObp0 v) := fun _ => wordOf_mask_data _ _ _
theorem busWrObp1 (v : Byte) : Statement (.busWrObp1 v) := fun _ => wordOf_mask_data _ _ _
theorem busWrDma (v : Byte) : Statement (.busWrDma v) := fun _ => wordOf_mask_data _ _ _
theorem busWrBootRomDisable (v : Byte) : Statement (.busWrBootRomDisable v) := fun _ => wordOf_mask_data _ _ _
theorem busWrEchoA (addr : Addr) (v : Byte) : Statement (.busWrEchoA addr v) := fun _ => wordOf_mask_op _ _ _
theorem busWrEchoB (addr : Addr) (v : Byte) : Statement (.busWrEchoB addr v) := fun _ => wordOf_mask_op _ _ _
theorem busWrPlain (addr : Addr) (v : Byte) : Statement (.busWrPlain addr v) := fun _ => wordOf_mask_op _ _ _
theorem regGet (id : RegId) : Statement (.regGet id) := fun _ => wordOf_mask_id _ _ _
theorem regSet (id : RegId) (v : Byte) : Statement (.regSet id v) := fun _ => wordOf_mask_id_data _ _ _
theorem loadCart : Statement .loadCart := fun _ => rfl

end Sys2Proof.Laws.TableRow
end

