-- ==== Sys2Proof/Tests/Slice0.lean ====
section
/-! SUPPORT. Tests. Expected results are the spec's own (95_test_vectors.md rows S, Q, B, P, L and section 2.1; the encoding
tables of 30_encoding.md); then one witness for the hypotheses of each statement. -/

namespace Sys2Proof.Machine.Tests

/-! ## Helpers -/

/-- A state with the given cells and scripted answers, M_CYCLE_TICKS = 4 as in the spec's examples. -/
def st (mem : Memory) (answers : List Answer) : State :=
  { mem := mem, transcript := [], readData := none, events := [], answers := answers, drawn := 0,
    mCycleTicks := 4, program := [], pos := 0 }

/-- One step running the word `w` at `s` gives a next state that `p` accepts. -/
def lands (w : Word) (s : State) (p : State → Bool) : Bool :=
  match step (s.withFetchWord 32 w.toNat) with
  | .next u => p u
  | .fault _ => false
  | .refused _ => false

/-- One step running `w` at `s` stops with the fault `e`. -/
def faults (w : Word) (s : State) (e : Fault) : Bool :=
  match step (s.withFetchWord 32 w.toNat) with
  | .next _ => false
  | .fault r => r == e
  | .refused _ => false

/-! ## WellFormed refuses ill-formed terms -/

theorem test_wf_read_of_register_address : wellFormed (.busRdMem 0xFF00) = false := by decide
theorem test_wf_rom : wellFormed (.busWrRom 0x8000 0) = false := by decide
theorem test_wf_echoA : wellFormed (.busWrEchoA 0xDE00 0) = false ∧ wellFormed (.busWrEchoA 0xBFFF 0) = false := by decide
theorem test_wf_echoB : wellFormed (.busWrEchoB 0xFE00 0) = false ∧ wellFormed (.busWrEchoB 0xDFFF 0) = false := by decide
theorem test_wf_plain_region : wellFormed (.busWrPlain 0xC000 0) = false ∧ wellFormed (.busWrPlain 0x7FFF 0) = false := by decide
theorem test_wf_plain_register : wellFormed (.busWrPlain 0xFF46 0) = false := by decide
theorem test_wf_plain_serial : wellFormed (.busWrPlain 0xFF01 0) = false := by decide

/-! ## Decoding: words written out from R54 to R57, R60, R61 and R62 -/

theorem test_decode_bus_rd :
    decode 0x10FF0000#32 = .ok .busRdJoyp ∧ decode 0x10FF0400#32 = .ok .busRdDiv ∧
    decode 0x10FF0300#32 = .ok .busRdDivlsb ∧ decode 0x10FF0500#32 = .ok .busRdTima ∧
    decode 0x10FF0600#32 = .ok .busRdTma ∧ decode 0x10FF0700#32 = .ok .busRdTac ∧
    decode 0x10FF0F00#32 = .ok .busRdIf ∧ decode 0x10FFFF00#32 = .ok .busRdIe ∧
    decode 0x10FF4000#32 = .ok .busRdLcdc ∧ decode 0x10FF4100#32 = .ok .busRdStat ∧
    decode 0x10FF4200#32 = .ok .busRdScy ∧ decode 0x10FF4300#32 = .ok .busRdScx ∧
    decode 0x10FF4400#32 = .ok .busRdLy ∧ decode 0x10FF4500#32 = .ok .busRdLyc ∧
    decode 0x10FF4700#32 = .ok .busRdBgp ∧ decode 0x10FF4800#32 = .ok .busRdObp0 ∧
    decode 0x10FF4900#32 = .ok .busRdObp1 ∧ decode 0x10FF4600#32 = .ok .busRdDma ∧
    decode 0x10FF5000#32 = .ok .busRdBootRomDisable ∧ decode 0x10E01000#32 = .ok (.busRdMem 0xE010) := by
  decide

theorem test_decode_bus_wr_registers :
    decode 0x20FF0010#32 = .ok (.busWrJoyp 0x10) ∧ decode 0x20FF0499#32 = .ok (.busWrDiv 0x99) ∧
    decode 0x20FF0377#32 = .ok (.busWrDivlsb 0x77) ∧ decode 0x20FF0510#32 = .ok (.busWrTima 0x10) ∧
    decode 0x20FF0677#32 = .ok (.busWrTma 0x77) ∧ decode 0x20FF0704#32 = .ok (.busWrTac 0x04) ∧
    decode 0x20FF0F04#32 = .ok (.busWrIf 0x04) ∧ decode 0x20FFFF1F#32 = .ok (.busWrIe 0x1F) ∧
    decode 0x20FF4091#32 = .ok (.busWrLcdc 0x91) ∧ decode 0x20FF41FF#32 = .ok (.busWrStat 0xFF) ∧
    decode 0x20FF4201#32 = .ok (.busWrScy 0x01) ∧ decode 0x20FF4302#32 = .ok (.busWrScx 0x02) ∧
    decode 0x20FF4403#32 = .ok (.busWrLy 0x03) ∧ decode 0x20FF4504#32 = .ok (.busWrLyc 0x04) ∧
    decode 0x20FF4705#32 = .ok (.busWrBgp 0x05) ∧ decode 0x20FF4806#32 = .ok (.busWrObp0 0x06) ∧
    decode 0x20FF4907#32 = .ok (.busWrObp1 0x07) ∧ decode 0x20FF46C0#32 = .ok (.busWrDma 0xC0) ∧
    decode 0x20FF5001#32 = .ok (.busWrBootRomDisable 0x01) := by
  decide

theorem test_decode_bus_wr_regions :
    decode 0x200001AA#32 = .ok (.busWrRom 0x0001 0xAA) ∧ decode 0x207FFF01#32 = .ok (.busWrRom 0x7FFF 0x01) ∧
    decode 0x20800001#32 = .ok (.busWrPlain 0x8000 0x01) ∧ decode 0x20BFFF01#32 = .ok (.busWrPlain 0xBFFF 0x01) ∧
    decode 0x20C01011#32 = .ok (.busWrEchoA 0xC010 0x11) ∧ decode 0x20DDFF01#32 = .ok (.busWrEchoA 0xDDFF 0x01) ∧
    decode 0x20DE0033#32 = .ok (.busWrPlain 0xDE00 0x33) ∧ decode 0x20E00004#32 = .ok (.busWrEchoB 0xE000 0x04) ∧
    decode 0x20FD0022#32 = .ok (.busWrEchoB 0xFD00 0x22) ∧ decode 0x20FE0006#32 = .ok (.busWrPlain 0xFE00 0x06) ∧
    decode 0x20FF0148#32 = .ok (.busWrSerial 0x48) ∧ decode 0x20FFFE10#32 = .ok (.busWrPlain 0xFFFE 0x10) := by
  decide

theorem test_decode_device_port :
    decode 0x30001200#32 = .ok (.regGet .BOOT_ROM_DISABLE) ∧ decode 0x30000900#32 = .ok (.regGet .STAT) ∧
    decode 0x40000C90#32 = .ok (.regSet .LY 0x90) ∧ decode 0x40000112#32 = .ok (.regSet .DIV 0x12) ∧
    decode 0x50000000#32 = .ok .loadCart := by
  decide

theorem test_decode_illegal :
    decode 0x00000000#32 = .error .reservedOp ∧ decode 0xF0000000#32 = .error .reservedOp ∧
    decode 0x28000000#32 = .error .rsvNotZero ∧ decode 0x30000001#32 = .error .dataNotZero ∧
    decode 0x30001F00#32 = .error .noSuchRegister ∧ decode 0x40001300#32 = .error .noSuchRegister ∧
    decode 0x30800000#32 = .error .rsv2NotZero ∧ decode 0x50800000#32 = .error .loadBitsNotZero := by
  decide

/-- The bits of a table word above `nbits` are 0. -/
theorem test_decodeTableWord :
    decodeTableWord 32 0x20FF4091 = some (.busWrLcdc 0x91) ∧ decodeTableWord 32 0x00000000 = none := by
  decide

/-! ## One step: reads -/

theorem test_rd_mem : lands 0x10E12300#32 (st [(0xE123, 0x77)] []) (fun u => u.readData == some 0x77) = true := by  -- B14
  decide
theorem test_rd_joyp_q1 :
    lands 0x10FF0000#32 (st [(0xFF00, 0x20)] [.inputs [⟨0x10, 0x01⟩, ⟨0x20, 0x08⟩]])
      (fun u => u.readData == some 0xEE && u.events == [.asked .getPressedInputs]) = true := by
  decide
theorem test_rd_joyp_q2 :
    lands 0x10FF0000#32 (st [] [.inputs [⟨0x10, 0x01⟩, ⟨0x20, 0x01⟩]]) (fun u => u.readData == some 0xCE) = true := by
  decide
theorem test_rd_div : lands 0x10FF0400#32 (st [(0xFF03, 1), (0xFF04, 2)] []) (fun u => u.readData == some 2) = true := by decide
theorem test_rd_divlsb : lands 0x10FF0300#32 (st [(0xFF03, 1), (0xFF04, 2)] []) (fun u => u.readData == some 1) = true := by decide
theorem test_rd_tima : lands 0x10FF0500#32 (st [(0xFF05, 3)] []) (fun u => u.readData == some 3) = true := by decide
theorem test_rd_tma : lands 0x10FF0600#32 (st [(0xFF06, 4)] []) (fun u => u.readData == some 4) = true := by decide
theorem test_rd_tac : lands 0x10FF0700#32 (st [(0xFF07, 0xF8)] []) (fun u => u.readData == some 0xF8) = true := by decide
theorem test_rd_if : lands 0x10FF0F00#32 (st [] []) (fun u => u.readData == some 0xE0) = true := by decide  -- B15
theorem test_rd_ie : lands 0x10FFFF00#32 (st [(0xFFFF, 0x1F)] []) (fun u => u.readData == some 0xFF) = true := by decide
theorem test_rd_lcdc : lands 0x10FF4000#32 (st [(0xFF40, 0x91)] []) (fun u => u.readData == some 0x91) = true := by decide
theorem test_rd_stat : lands 0x10FF4100#32 (st [(0xFF41, 0x05)] []) (fun u => u.readData == some 0x85) = true := by decide
theorem test_rd_scy : lands 0x10FF4200#32 (st [(0xFF42, 5)] []) (fun u => u.readData == some 5) = true := by decide
theorem test_rd_scx : lands 0x10FF4300#32 (st [(0xFF43, 6)] []) (fun u => u.readData == some 6) = true := by decide
theorem test_rd_ly : lands 0x10FF4400#32 (st [(0xFF44, 7)] []) (fun u => u.readData == some 7) = true := by decide
theorem test_rd_lyc : lands 0x10FF4500#32 (st [(0xFF45, 8)] []) (fun u => u.readData == some 8) = true := by decide
theorem test_rd_bgp : lands 0x10FF4700#32 (st [(0xFF47, 9)] []) (fun u => u.readData == some 9) = true := by decide
theorem test_rd_obp0 : lands 0x10FF4800#32 (st [(0xFF48, 10)] []) (fun u => u.readData == some 10) = true := by decide
theorem test_rd_obp1 : lands 0x10FF4900#32 (st [(0xFF49, 11)] []) (fun u => u.readData == some 11) = true := by decide
theorem test_rd_dma : lands 0x10FF4600#32 (st [(0xFF46, 12)] []) (fun u => u.readData == some 12) = true := by decide
theorem test_rd_boot : lands 0x10FF5000#32 (st [(0xFF50, 1)] []) (fun u => u.readData == some 1) = true := by decide

/-! ## One step: writes outside the registers -/

theorem test_wr_rom : lands 0x207FFF22#32 (st [(0x7FFF, 0x11)] []) (fun u => u.mem == [(0x7FFF, 0x11)]) = true := by decide  -- B2
theorem test_wr_serial :
    lands 0x20FF0141#32 (st [] []) (fun u => u.transcript == [0x41] && u.mem == [(0xFF01, 0x41)]) = true := by decide  -- B10
theorem test_wr_echoA :
    lands 0x20DDFF02#32 (st [] []) (fun u => u.mem == [(0xDDFF, 0x02), (0xFDFF, 0x02)]) = true := by decide  -- B5
theorem test_wr_echoB :
    lands 0x20E00004#32 (st [] []) (fun u => u.mem == [(0xC000, 0x04), (0xE000, 0x04)]) = true := by decide  -- B7
theorem test_wr_plain : lands 0x20DE0003#32 (st [] []) (fun u => u.mem == [(0xDE00, 0x03)]) = true := by decide  -- B6
theorem test_wr_plain_oam : lands 0x20FE0006#32 (st [] []) (fun u => u.mem == [(0xFE00, 0x06)]) = true := by decide  -- B9

/-! ## One step: register writes on the bus -/

theorem test_wr_joyp_q5 : lands 0x20FF001F#32 (st [] []) (fun u => u.mem == [(0xFF00, 0xD0)]) = true := by decide
theorem test_wr_joyp_q6 : lands 0x20FF0020#32 (st [(0xFF00, 0x0F)] []) (fun u => u.mem == [(0xFF00, 0xEF)]) = true := by decide
theorem test_wr_div_q7 :
    lands 0x20FF0477#32 (st [(0xFF03, 0x34), (0xFF04, 0x12)] [.returns []])
      (fun u => u.mem == [] && u.events == [.called .checkTIMAUnexpectedIncrease]) = true := by decide
theorem test_wr_divlsb_q8 :
    lands 0x20FF03FF#32 (st [(0xFF03, 0xFF), (0xFF04, 0x80)] [.returns []])
      (fun u => u.mem == [] && u.events == [.called .checkTIMAUnexpectedIncrease]) = true := by decide
theorem test_wr_tima_q9 :
    lands 0x20FF0542#32 (st [] [.ticks 3, .returns []])
      (fun u => u.mem == [(0xFF05, 0x42)] && u.events == [.asked .getTicksSinceOverflow, .called .unsetOverflow]) = true := by
  decide
theorem test_wr_tima_q10 :
    lands 0x20FF0542#32 (st [] [.ticks 4]) (fun u => u.mem == [] && u.events == [.asked .getTicksSinceOverflow]) = true := by
  decide
/-- Program 3, step 12: `setTIMA` issues `set TIMA` inside the call. -/
theorem test_wr_tma_step12 :
    lands 0x20FF0677#32 (st [(0xFF05, 0x10)] [.ticks 3, .returns [.regSet .TIMA 0x77]])
      (fun u => u.mem == [(0xFF05, 0x77), (0xFF06, 0x77)]) = true := by decide
theorem test_wr_tma_q12 :
    lands 0x20FF06AB#32 (st [] [.ticks 4]) (fun u => u.mem == [(0xFF06, 0xAB)] && u.events.length == 1) = true := by decide
theorem test_wr_tac_q13 :
    lands 0x20FF0701#32 (st [(0xFF07, 0x05)] [.enabled true, .rateBit true, .enabled false, .rateBit true, .returns []])
      (fun u => u.mem == [(0xFF07, 0x01)] && u.events.getLast? == some (.called .checkTIMAUnexpectedIncrease)) = true := by
  decide
theorem test_wr_tac_q14 :
    lands 0x20FF0705#32 (st [] [.enabled false, .rateBit true, .enabled true, .rateBit true])
      (fun u => u.mem == [(0xFF07, 0x05)] && u.events.length == 4) = true := by decide
theorem test_wr_if_q16 :
    lands 0x20FF0F04#32 (st [] [.ticks 0, .returns []])
      (fun u => u.mem == [(0xFF0F, 0x04)] && u.events.getLast? == some (.called .setIFOverride)) = true := by decide
theorem test_wr_if_q17 :
    lands 0x20FF0F04#32 (st [] [.ticks 9]) (fun u => u.mem == [(0xFF0F, 0x04)] && u.events.length == 1) = true := by decide
theorem test_wr_ie_q18 : lands 0x20FFFF1F#32 (st [] []) (fun u => regRead .IE u == 0xFF) = true := by decide
theorem test_wr_lcdc_q19 :
    lands 0x20FF4011#32 (st [(0xFF40, 0x91)] [.returns [], .returns []])
      (fun u => u.mem == [(0xFF40, 0x11)] && u.events == [.called .videoReset, .called .surfaceClear]) = true := by decide
theorem test_wr_lcdc_q20 :
    lands 0x20FF4040#32 (st [(0xFF40, 0x80)] []) (fun u => u.mem == [(0xFF40, 0x40)] && u.events == []) = true := by decide
theorem test_wr_stat_q23 : lands 0x20FF41FF#32 (st [(0xFF41, 0x02)] []) (fun u => u.mem == [(0xFF41, 0xFA)]) = true := by decide
theorem test_wr_stat_q24 : lands 0x20FF4100#32 (st [(0xFF41, 0xFF)] []) (fun u => u.mem == [(0xFF41, 0x87)]) = true := by decide
theorem test_wr_scy : lands 0x20FF4210#32 (st [] []) (fun u => u.mem == [(0xFF42, 0x10)]) = true := by decide
theorem test_wr_scx : lands 0x20FF4310#32 (st [] []) (fun u => u.mem == [(0xFF43, 0x10)]) = true := by decide
theorem test_wr_ly_q25 : lands 0x20FF4499#32 (st [] []) (fun u => u.mem == [(0xFF44, 0x99)]) = true := by decide
theorem test_wr_lyc : lands 0x20FF4510#32 (st [] []) (fun u => u.mem == [(0xFF45, 0x10)]) = true := by decide
theorem test_wr_bgp : lands 0x20FF4710#32 (st [] []) (fun u => u.mem == [(0xFF47, 0x10)]) = true := by decide
theorem test_wr_obp0 : lands 0x20FF4810#32 (st [] []) (fun u => u.mem == [(0xFF48, 0x10)]) = true := by decide
theorem test_wr_obp1 : lands 0x20FF4910#32 (st [] []) (fun u => u.mem == [(0xFF49, 0x10)]) = true := by decide
theorem test_wr_dma_q26 :
    lands 0x20FF46C1#32 (st [] [.returns []])
      (fun u => u.mem == [(0xFF46, 0xC1)] && u.events == [.called (.startTransfer 0xC100)]) = true := by decide
theorem test_wr_dma_q27 :
    lands 0x20FF46F2#32 (st [(0xFF46, 0xC1)] []) (fun u => u.mem == [(0xFF46, 0xC1)] && u.events == []) = true := by decide
theorem test_wr_boot_q30 :
    lands 0x20FF5001#32 (st [] [.cart (.image [0xAA])])
      (fun u => u.mem == [(0, 0xAA), (0xFF50, 0x01)] && u.events == [.asked .cartRead]) = true := by decide
theorem test_wr_boot_q32 :
    lands 0x20FF5000#32 (st [(0xFF50, 1)] []) (fun u => u.mem == [(0xFF50, 1)] && u.events == []) = true := by decide

/-! ## One step: the device port and the loader -/

theorem test_get_stat_p1 : lands 0x30000900#32 (st [(0xFF41, 0x03)] []) (fun u => u.readData == some 0x83) = true := by decide
theorem test_get_joyp_p2 :
    lands 0x30000000#32 (st [] []) (fun u => u.readData == some 0xC0 && u.events == []) = true := by decide
theorem test_set_div_p3 :
    lands 0x40000105#32 (st [(0xFF03, 0x11)] []) (fun u => u.mem == [(0xFF03, 0x11), (0xFF04, 0x05)] && u.events == []) = true := by
  decide
theorem test_set_boot_p6 :
    lands 0x40001201#32 (st [] []) (fun u => latchSet u && u.events == []) = true := by decide
theorem test_load_l2 :
    lands 0x50000000#32 (st [(0, 1), (1, 2), (2, 3), (3, 4)] [.cart (.image [9])])
      (fun u => u.mem == [(0, 9), (1, 2), (2, 3), (3, 4)]) = true := by decide
theorem test_load_l5 :
    lands 0x50000000#32 (st [(0, 1)] [.cart .failure]) (fun u => u.mem == [(0, 1)] && !latchSet u) = true := by decide

/-! ## Reset, stops, and a run from reset -/

theorem test_reset_l7 :
    (State.resetWith ⟨4, [0xB0, 0xB1]⟩ (.image [0xC0, 0xC1, 0xC2])).mem = [(0, 0xB0), (1, 0xB1), (2, 0xC2)] := by decide
theorem test_reset_l8 : (State.resetWith ⟨4, [0xB0, 0xB1]⟩ .failure).mem = [(0, 0xB0), (1, 0xB1)] := by decide
theorem test_bulk_overrun : (match memWriteBytes 0xFFFF [1, 2] (st [] []) with
    | .fault e => e == .bulkOverrun
    | _ => false) = true := by decide
theorem test_input_contract_q4 : faults 0x10FF0000#32 (st [] [.inputs [⟨0x40, 0x01⟩]]) .inputContract = true := by decide
theorem test_device_contract : faults 0x20FF0542#32 (st [] [.enabled true]) .deviceContract = true := by decide

/-- From reset, where every device answer is a free value, a transaction runs as the first one. -/
theorem test_first_step_joyp : lands 0x10FF0000#32 State.reset (fun u => u.drawn == 1) = true := by decide
theorem test_first_step_tima : lands 0x20FF0542#32 State.reset (fun u => u.pos == 1) = true := by decide
theorem test_first_step_lcdc : lands 0x20FF4011#32 State.reset (fun u => u.mem == [(0xFF40, 0x11)]) = true := by decide
theorem test_first_step_load : lands 0x50000000#32 State.reset (fun u => u.drawn == 1) = true := by decide

/-! ## Witnesses: for each statement with hypotheses, values that meet all of them -/

/-- A memory with one cell outside the echo ranges satisfies the invariant. -/
theorem inv_one {k : Nat} {v : Byte} {answers : List Answer} (hk : k < 0x10000 ∧ v ≠ 0)
    (ho : k < 0xC000 ∨ 0xFE00 ≤ k) : Inv (st [(k, v)] answers) := by
  refine ⟨?_, fun a ha => ?_, Nat.succ_pos 3⟩
  · have hv : (v != unlisted) = true := bne_iff_ne.mpr hk.2
    simp [st, Memory.wf, Memory.wfFrom, hk.1, hv]
  · simp only [inEchoA, Bool.and_eq_true, decide_eq_true_eq] at ha
    have e : (a + echoOffset).toNat = a.toNat + 0x2000 := by simp [echoOffset, BitVec.toNat_add]; omega
    simp only [st, Memory.read, Memory.cell, e]
    rw [if_neg (by omega), if_neg (by omega)]

theorem echo_nil : EchoOk [] := by
  intro a _
  simp only [Memory.read, Memory.cell]

/-- The empty memory satisfies the invariant. -/
theorem inv_nil {answers : List Answer} : Inv (st [] answers) := ⟨rfl, echo_nil, Nat.succ_pos 3⟩

theorem witness_decode_of_encode : wellFormed (.busWrEchoA 0xDDFF 0x77) = true := by decide

theorem witness_encode_of_decode : decode 0x40000C90#32 = .ok (.regSet .LY 0x90) := by decide

/-- The bounds of each clause of BusAddressesSelectTheirRows. -/
theorem witness_bus_addresses :
    (0xFF00#16 = regAddr .JOYP ∧ 0xFFFF#16 = regAddr .IE) ∧ (∀ id, 0xFEFF#16 ≠ regAddr id) ∧
    (0x7FFF#16).toNat ≤ 0x7FFF ∧ (0x8000 ≤ (0x8000#16).toNat ∧ (0xBFFF#16).toNat ≤ 0xBFFF) ∧
    (0xC000 ≤ (0xC000#16).toNat ∧ (0xDDFF#16).toNat ≤ 0xDDFF) ∧
    (0xDE00 ≤ (0xDE00#16).toNat ∧ (0xDFFF#16).toNat ≤ 0xDFFF) ∧
    (0xE000 ≤ (0xE000#16).toNat ∧ (0xFDFF#16).toNat ≤ 0xFDFF) ∧ 0xFF01#16 = serialAddr ∧
    (0xFE00 ≤ (0xFE00#16).toNat ∧ 0xFE00#16 ≠ serialAddr ∧ ∀ id, 0xFE00#16 ≠ regAddr id) ∧
    (0xFE00 ≤ (0xFFFE#16).toNat ∧ 0xFFFE#16 ≠ serialAddr ∧ ∀ id, 0xFFFE#16 ≠ regAddr id) := by
  refine ⟨by decide, ?_, by decide, by decide, by decide, by decide, by decide, by decide, ⟨by decide, by decide, ?_⟩,
    by decide, by decide, ?_⟩ <;> intro id <;> cases id <;> decide

theorem witness_step_runs :
    ({ st [] [] with program := [0x50000000#32] }).program[(st [] []).pos]? = some 0x50000000#32 ∧
      decode 0x50000000#32 = .ok .loadCart := by decide

theorem witness_step_refuses :
    ({ st [] [] with program := [0x60000000#32] }).program[(st [] []).pos]? = some 0x60000000#32 ∧
      decode 0x60000000#32 = .error .reservedOp := by decide

theorem witness_step_idles : (st [] []).program.length ≤ (st [] []).pos := by decide

/-- The largest boot image. -/
theorem witness_params_valid : Config.Params.valid ⟨1, List.replicate 0x8000 0xAF⟩ :=
  ⟨by decide, by simp only [List.length_replicate]; decide⟩

theorem witness_step_keeps : Inv (st [] []) ∧
    step ((st [] []).withFetchWord 32 0x20C00042) = .next
      { (st [(0xC000, 0x42), (0xE000, 0x42)] []) with program := [0x20C00042#32], pos := 1 } := ⟨inv_nil, by rfl⟩

/-- LOAD_CART of an image that changes a cell of the ROM region. -/
theorem witness_rom_changes :
    Inv ((st [] [.cart (.image [0xAA])]).withFetchWord 32 0x50000000) ∧ (0#16).toNat ≤ 0x7FFF ∧
    ∃ t, step ((st [] [.cart (.image [0xAA])]).withFetchWord 32 0x50000000) = .next t ∧
      memRead 0 t ≠ memRead 0 ((st [] [.cart (.image [0xAA])]).withFetchWord 32 0x50000000) :=
  ⟨⟨rfl, echo_nil, Nat.succ_pos 3⟩, by decide, _, rfl, by decide⟩

/-- The same by the bus write that sets the latch. -/
theorem witness_rom_changes_by_latch :
    ∃ t, step ((st [] [.cart (.image [0xAA])]).withFetchWord 32 0x20FF5001) = .next t ∧
      memRead 0 t ≠ memRead 0 ((st [] [.cart (.image [0xAA])]).withFetchWord 32 0x20FF5001) :=
  ⟨_, rfl, by decide⟩

theorem witness_transcript_grows :
    ∃ t, step ((st [] []).withFetchWord 32 0x20FF0148) = .next t ∧ t.transcript = [0x48] := ⟨_, rfl, by decide⟩

theorem witness_transcript_not_read : ∃ u, exec (.busWrSerial 0x48) (st [] []) = .next u := ⟨_, rfl⟩

theorem witness_reads : isRead .busRdIf = true ∧ ∃ u, exec .busRdIf (st [] []) = .next u := ⟨rfl, _, rfl⟩

theorem witness_register_reads :
    (∃ u, exec (busRdRow .STAT) (st [] []) = .next u) ∧ ∃ u, exec (.regGet .STAT) (st [] []) = .next u :=
  ⟨⟨_, rfl⟩, _, rfl⟩

theorem witness_registers_call :
    (∃ u, exec (busRdRow .JOYP) (st [] [.inputs []]) = .next u) ∧
      ∃ u, exec (busWrRow .LCDC 0x11) (st [(0xFF40, 0x91)] [.returns [], .returns []]) = .next u :=
  ⟨⟨_, rfl⟩, _, rfl⟩

theorem witness_register_writes_touch : (∀ r, 0xFF01#16 ≠ regAddr r) ∧
    (∃ u, exec (.regSet .DMA 0xF5) (st [] []) = .next u) ∧ ∃ u, exec (busWrRow .DIV 0) (st [] [.returns []]) = .next u :=
  ⟨by intro r; cases r <;> decide, ⟨_, rfl⟩, _, rfl⟩

theorem witness_latch_one_way : Inv (st [(0xFF50, 1)] []) ∧ wellFormed (.busWrBootRomDisable 0x00) = true ∧
    ∃ u, exec (.busWrBootRomDisable 0x00) (st [(0xFF50, 1)] []) = .next u ∧ latchSet (st [(0xFF50, 1)] []) = true ∧
      u.events.drop (st [(0xFF50, 1)] []).events.length = [] ∧
      ∀ v, Instr.busWrBootRomDisable 0x00 ≠ .regSet .BOOT_ROM_DISABLE v :=
  ⟨inv_one (by decide) (by decide), by decide, _, rfl, by decide, by decide, nofun⟩

theorem witness_unscripted : (st [] []).answers = [] := by decide

theorem witness_stops :
    exec .busRdJoyp (st [] [.inputs [⟨0x40, 0x01⟩]]) = .fault .inputContract ∧
    exec .busRdJoyp (st [] [.ticks 0]) = .fault .deviceContract ∧
    exec (.busWrDiv 0) (st [] [.returns [.loadCart]]) = .refused .nestedTransaction := ⟨rfl, rfl, rfl⟩

theorem witness_bus_reads : RegId.STAT ≠ .JOYP := by decide

theorem witness_joyp_read : pressedAnswer (st [] [.inputs [⟨0x10, 0x08⟩, ⟨0x20, 0x01⟩]]) =
    .next [⟨0x10, 0x08⟩, ⟨0x20, 0x01⟩] := by rfl

theorem witness_rom_write : (0#16).toNat ≤ 0x7FFF ∧ (0x7FFF#16).toNat ≤ 0x7FFF := by decide

/-- SerialWritesAppendAndStore, JoypWrite, StatWrite, RegSet and BulkWrites have this one hypothesis, or this one first. -/
theorem witness_inv : Inv (st [(0xFF41, 0x87)] []) := inv_one (by decide) (by decide)

theorem witness_echo : Inv (st [] []) ∧ (0xC000 ≤ (0xC000#16).toNat ∧ (0xC000#16).toNat ≤ 0xDDFF) ∧
    (0xC000 ≤ (0xDDFF#16).toNat ∧ (0xDDFF#16).toNat ≤ 0xDDFF) ∧
    (0xE000 ≤ (0xE000#16).toNat ∧ (0xE000#16).toNat ≤ 0xFDFF) ∧
    (0xE000 ≤ (0xFDFF#16).toNat ∧ (0xFDFF#16).toNat ≤ 0xFDFF) := ⟨inv_nil, by decide⟩

theorem witness_plain : Inv (st [] []) ∧ wellFormed (.busWrPlain 0x8000 0x22) = true ∧
    wellFormed (.busWrPlain 0xFFFE 0x10) = true := ⟨inv_nil, by decide⟩

theorem witness_divider : Inv (st [] [.returns [.regSet .TIMA 0x77]]) ∧
    callAnswer (st [] [.returns [.regSet .TIMA 0x77]]) = .next [.set .TIMA 0x77] := ⟨inv_nil, rfl⟩

/-- The last tick inside the window, for TIMA, TMA and IF. -/
theorem witness_inside_window : Inv (st [] [.ticks 3, .returns []]) ∧
    ticksAnswer (st [] [.ticks 3, .returns []]) = .next 3 ∧ 3 < (st [] [.ticks 3, .returns []]).mCycleTicks ∧
    callAnswer (consumed 1 (st [] [.ticks 3, .returns []])) = .next [] := ⟨inv_nil, rfl, by decide, rfl⟩

/-- The first tick outside it. -/
theorem witness_outside_window : Inv (st [] [.ticks 4]) ∧ ticksAnswer (st [] [.ticks 4]) = .next 4 ∧
    (st [] [.ticks 4]).mCycleTicks ≤ 4 := ⟨inv_nil, rfl, by decide⟩

theorem witness_tac_falling :
    let s := st [] [.enabled true, .rateBit true, .enabled true, .rateBit false, .returns []]
    Inv s ∧ enabledAnswer s = .next true ∧ rateBitAnswer (consumed 1 s) = .next true ∧
      enabledAnswer (consumed 2 s) = .next true ∧ rateBitAnswer (consumed 3 s) = .next false ∧
      ((true = true ∧ true = true) ∧ ¬ (true = true ∧ false = true)) ∧ callAnswer (consumed 4 s) = .next [] :=
  ⟨inv_nil, rfl, rfl, rfl, rfl, by decide, rfl⟩

theorem witness_tac_steady :
    let s := st [] [.enabled true, .rateBit true, .enabled true, .rateBit true]
    Inv s ∧ enabledAnswer s = .next true ∧ rateBitAnswer (consumed 1 s) = .next true ∧
      enabledAnswer (consumed 2 s) = .next true ∧ rateBitAnswer (consumed 3 s) = .next true ∧
      ¬ ((true = true ∧ true = true) ∧ ¬ (true = true ∧ true = true)) :=
  ⟨inv_nil, rfl, rfl, rfl, rfl, by decide⟩

theorem witness_default_registers : RegId.IE ∈ defaultRegs ∧ RegId.OBP1 ∈ defaultRegs ∧ Inv (st [] []) :=
  ⟨by decide, by decide, inv_nil⟩

/-- Bit 6 alone is cleared. -/
theorem witness_lcdc_off :
    let s := st [(0xFF40, 0x40)] [.returns [.regGet .LCDC], .returns []]
    Inv s ∧ (((memRead (regAddr .LCDC) s).getLsbD 7 = true ∨ (memRead (regAddr .LCDC) s).getLsbD 6 = true) ∧
      (0x3F#8).getLsbD 7 = false ∧ (0x3F#8).getLsbD 6 = false) ∧
      callAnswer s = .next [.get .LCDC] ∧ callAnswer (consumed 1 s) = .next [] :=
  ⟨inv_one (by decide) (by decide), by decide, rfl, rfl⟩

/-- From one of the two bits to the other. -/
theorem witness_lcdc_stays :
    let s := st [(0xFF40, 0x80)] []
    Inv s ∧ ¬ (((memRead (regAddr .LCDC) s).getLsbD 7 = true ∨ (memRead (regAddr .LCDC) s).getLsbD 6 = true) ∧
      (0x40#8).getLsbD 7 = false ∧ (0x40#8).getLsbD 6 = false) :=
  ⟨inv_one (by decide) (by decide), by decide⟩

theorem witness_dma : Inv (st [] [.returns []]) ∧ (0xF1#8).toNat ≤ 0xF1 ∧
    callAnswer (st [] [.returns []]) = .next [] ∧ 0xF2 ≤ (0xF2#8).toNat := ⟨inv_nil, by decide, rfl, by decide⟩

theorem witness_latch_write : Inv (st [] [.cart .failure]) ∧
    memRead (regAddr .BOOT_ROM_DISABLE) (st [] [.cart .failure]) ≠ 0x01 ∧
    latchSet (st [] [.cart .failure]) = false ∧ cartAnswer (st [] [.cart .failure]) = .next .failure ∧
    memRead (regAddr .BOOT_ROM_DISABLE) (st [(0xFF50, 1)] []) = 0x01 ∧ (0x02#8 ≠ 0x01) :=
  ⟨inv_nil, by decide, by decide, rfl, by decide, by decide⟩

theorem witness_load_cart : Inv (st [] [.cart (.image [0x31])]) ∧
    cartAnswer (st [] [.cart (.image [0x31])]) = .next (.image [0x31]) := ⟨inv_nil, rfl⟩

/-- The last bulk write that fits and the first that does not. -/
theorem witness_bulk : 0xFFFE + [0x01#8, 0x02#8].length ≤ 0x10000 ∧ 0x10000 < 0xFFFF + [0x01#8, 0x02#8].length := by decide

/-- An image exactly as long as the boot image. -/
theorem witness_replace : Config.Params.valid ⟨4, [0xB0, 0xB1]⟩ ∧
    ([0xB0, 0xB1] : List Byte).length ≤ [0xC0#8, 0xC1#8].length ∧
    (0x0001#16).toNat < ([0xB0, 0xB1] : List Byte).length := by decide

/-- Each clause of NestedBusTransactionsAreRefused. -/
theorem witness_nested :
    (Instr.busRdJoyp ∈ [Instr.busRdJoyp] ∧ (∀ id, Instr.busRdJoyp ≠ .regGet id) ∧
      ∀ id w, Instr.busRdJoyp ≠ .regSet id w) ∧
    (st [(0xFF40, 0x91)] [.returns [.busRdJoyp]]).answers = .returns [.busRdJoyp] :: [] ∧
    displayTurnedOff (regRead .LCDC (st [(0xFF40, 0x91)] [.returns [.busRdJoyp]])) 0x11 = true ∧ (0x11#8).toNat ≤ 0xF1 ∧
    portOpsOf [] = some [] ∧ 3 < (st [] [.ticks 3, .returns [.busRdJoyp]]).mCycleTicks ∧ (false && true) = false :=
  ⟨⟨by decide, by intro id; exact nofun, by intro id w; exact nofun⟩, rfl, by decide, by decide, rfl, by decide, rfl⟩

/-- The clauses of AnswersOfTheWrongTypeFault about the first answer. -/
theorem witness_wrong_type :
    (∀ ps, Answer.ticks 0 ≠ .inputs ps) ∧ (∀ t, Answer.enabled true ≠ .ticks t) ∧
    (∀ b, Answer.rateBit true ≠ .enabled b) ∧ (∀ txns, Answer.cart .failure ≠ .returns txns) ∧
    (∀ c, Answer.inputs [] ≠ .cart c) ∧ (0xF1#8).toNat ≤ 0xF1 ∧
    displayTurnedOff (regRead .LCDC (st [(0xFF40, 0xC0)] [])) 0x3F = true ∧ latchTransition (st [] []) 0x01 = true :=
  ⟨nofun, nofun, nofun, nofun, nofun, by decide, by decide, by decide⟩

/-- Its clause about the calls after the ticks, at the last tick inside the window. -/
theorem witness_wrong_type_after_ticks :
    (st [] [.ticks 3, .ticks 0]).answers = .ticks 3 :: .ticks 0 :: [] ∧ 3 < (st [] [.ticks 3, .ticks 0]).mCycleTicks ∧
      ∀ txns, Answer.ticks 0 ≠ .returns txns := ⟨rfl, by decide, nofun⟩

/-- Its clauses about the later samples of TAC and its check. -/
theorem witness_wrong_type_tac :
    ((st [] [.enabled false, .enabled true]).answers = .enabled false :: .enabled true :: [] ∧
      ∀ b, Answer.enabled true ≠ .rateBit b) ∧
    ((st [] [.enabled true, .rateBit true, .rateBit true]).answers =
        .enabled true :: .rateBit true :: .rateBit true :: [] ∧ ∀ b, Answer.rateBit true ≠ .enabled b) ∧
    ((st [] [.enabled true, .rateBit true, .enabled true, .returns []]).answers =
        .enabled true :: .rateBit true :: .enabled true :: .returns [] :: [] ∧ ∀ b, Answer.returns [] ≠ .rateBit b) ∧
    (true && false) = false ∧
    (st [] [.enabled true, .rateBit true, .enabled true, .rateBit false, .ticks 0]).answers =
      .enabled true :: .rateBit true :: .enabled true :: .rateBit false :: .ticks 0 :: [] :=
  ⟨⟨rfl, nofun⟩, ⟨rfl, nofun⟩, ⟨rfl, nofun⟩, rfl, rfl⟩

/-- Its clause about the surface's clear. -/
theorem witness_wrong_type_clear :
    let s := st [(0xFF40, 0x80)] [.returns [.regSet .LY 0], .ticks 0]
    s.answers = .returns ([PortOp.set .LY 0].map instrOf) :: .ticks 0 :: [] ∧
      displayTurnedOff (regRead .LCDC s) 0x3F = true := by decide

/-- Each clause of ScriptedAnswersAreTakenAsGiven, with every pair of the input contract's bounds. -/
theorem witness_scripted :
    (st [] [.ticks 4]).answers = .ticks 4 :: [] ∧ (st [] [.enabled false]).answers = .enabled false :: [] ∧
    (st [] [.rateBit false]).answers = .rateBit false :: [] ∧
    (st [] [.inputs [⟨0x10, 0x01⟩, ⟨0x20, 0x08⟩]]).answers = .inputs [⟨0x10, 0x01⟩, ⟨0x20, 0x08⟩] :: [] ∧
    (∀ p ∈ [(⟨0x10, 0x01⟩ : Pressed), ⟨0x20, 0x08⟩], (p.sel = 0x10 ∨ p.sel = 0x20) ∧
      (p.prs = 0x01 ∨ p.prs = 0x02 ∨ p.prs = 0x04 ∨ p.prs = 0x08)) ∧
    (st [] [.cart .failure]).answers = .cart .failure :: [] ∧
    (st [] [.returns [.regGet .IF, .regSet .TIMA 1]]).answers =
      .returns ([PortOp.get .IF, PortOp.set .TIMA 1].map instrOf) :: [] := by decide

/-- RegSetIsReadBackWithItsMask and DefaultRegistersReadBackWhatIsWritten: the invariant, a register of the list, an address
without a register. -/
theorem witness_read_back : Inv (st [(0xFFFF, 0x1F)] []) ∧ RegId.IE ∈ defaultRegs ∧ ∀ r, 0xFFFE#16 ≠ regAddr r :=
  ⟨inv_one (by decide) (by decide), by decide, by intro r; cases r <;> decide⟩

/-- EchoWritesAreReadAtBothAddresses, at both ends of the range. -/
theorem witness_echo_partners : Inv (st [] []) ∧
    ((0xC000 ≤ (0xC000#16).toNat ∧ (0xC000#16).toNat ≤ 0xDDFF) ∧ (0xE000#16).toNat = (0xC000#16).toNat + 0x2000) ∧
    ((0xC000 ≤ (0xDDFF#16).toNat ∧ (0xDDFF#16).toNat ≤ 0xDDFF) ∧ (0xFDFF#16).toNat = (0xDDFF#16).toNat + 0x2000) :=
  ⟨inv_nil, by decide, by decide⟩

theorem witness_input_contract : (⟨0x10, 0x0F⟩ : Pressed) ∈ [(⟨0x10, 0x0F⟩ : Pressed)] ∧
    ¬ (((0x10 : Byte) = 0x10 ∨ (0x10 : Byte) = 0x20) ∧
      ((0x0F : Byte) = 0x01 ∨ (0x0F : Byte) = 0x02 ∨ (0x0F : Byte) = 0x04 ∨ (0x0F : Byte) = 0x08)) := by decide

end Sys2Proof.Machine.Tests
end

section
/-! What a scripted answer of the right type says (R8, R106), and that using one takes it off the script. -/

namespace Sys2Proof.Machine

/-! An answer where one of the right type is scripted is that one, exactly. -/

theorem ticksAnswer_of_cons {s : State} {t : Nat} {rest : List Answer} (h : s.answers = .ticks t :: rest) :
    ticksAnswer s = .next t := by simp only [ticksAnswer, h]

theorem enabledAnswer_of_cons {s : State} {b : Bool} {rest : List Answer} (h : s.answers = .enabled b :: rest) :
    enabledAnswer s = .next b := by simp only [enabledAnswer, h]

theorem rateBitAnswer_of_cons {s : State} {b : Bool} {rest : List Answer} (h : s.answers = .rateBit b :: rest) :
    rateBitAnswer s = .next b := by simp only [rateBitAnswer, h]

theorem cartAnswer_of_cons {s : State} {c : CartAnswer} {rest : List Answer} (h : s.answers = .cart c :: rest) :
    cartAnswer s = .next c := by simp only [cartAnswer, h]

/-- The contract of R69 as the rule writes it out. -/
theorem inContract_iff {p : Pressed} :
    inContract p = true ↔
      (p.sel = 0x10 ∨ p.sel = 0x20) ∧ (p.prs = 0x01 ∨ p.prs = 0x02 ∨ p.prs = 0x04 ∨ p.prs = 0x08) := by
  simp [inContract, or_assoc]

/-- Scripted pairs within the contract of R69 are the answer. -/
theorem pressedAnswer_of_cons {s : State} {ps : List Pressed} {rest : List Answer}
    (h : s.answers = .inputs ps :: rest) (hps : ∀ p ∈ ps, inContract p = true) :
    pressedAnswer s = .next ps := by
  simp only [pressedAnswer, h]
  exact if_pos (List.all_eq_true.mpr hps)

/-- A scripted return whose transactions are all of the device port answers with them (R119). -/
theorem callAnswer_of_cons {s : State} {txns : List Instr} {ops : List PortOp} {rest : List Answer}
    (h : s.answers = .returns txns :: rest) (hops : portOpsOf txns = some ops) :
    callAnswer s = .next ops := by simp only [callAnswer, h, hops]

/-- Using a scripted answer takes it off the script. -/
theorem consumed_one_answers_of_cons {s : State} {x : Answer} {rest : List Answer} (h : s.answers = x :: rest) :
    (consumed 1 s).answers = rest := by simp [consumed_eq, h]

/-- Using a scripted answer draws no free value. -/
theorem consumed_one_drawn_of_cons {s : State} {x : Answer} {rest : List Answer} (h : s.answers = x :: rest) :
    (consumed 1 s).drawn = s.drawn := by simp [consumed_eq, h]

/-- Settles O53, one lemma for each query, for the call, and for the answer's use. -/
theorem scriptedAnswersAreTakenAsGiven : Obligations.ScriptedAnswersAreTakenAsGiven := by
  intro s rest
  refine ⟨fun _ => ticksAnswer_of_cons, fun _ => enabledAnswer_of_cons, fun _ => rateBitAnswer_of_cons, ?inputs,
    fun _ => cartAnswer_of_cons, ?returns, ?used⟩
  case inputs => exact fun ps h hps => pressedAnswer_of_cons h fun p hp => inContract_iff.mpr (hps p hp)
  case returns => exact fun ops h => callAnswer_of_cons h (portOpsOf_map_instrOf ops)
  case used => exact fun x h => ⟨consumed_one_answers_of_cons h, consumed_one_drawn_of_cons h⟩

end Sys2Proof.Machine
end

section
/-! A step is the meaning of the decoded word, then the next position (10_state.md R15, R47). -/

namespace Sys2Proof.Machine

/-- Where the pending word decodes, the step is that transaction and then the next position. -/
theorem step_of_decode {s : State} {w : Word} {i : Instr} (hw : nextWord s = some w) (hi : decode w = .ok i) :
    step s = andThen (exec i s) fun t => .next (advance t) := by
  simp only [step, hw, hi]

/-- A step answers a state where nothing is pending, or where the decoded transaction does. -/
theorem step_eq_next {s t : State} :
    step s = .next t ↔ (nextWord s = none ∧ t = s) ∨
      ∃ w i u, nextWord s = some w ∧ decode w = .ok i ∧ exec i s = .next u ∧ t = advance u := by
  cases hw : nextWord s with
  | none => simp [step, hw, eq_comm]
  | some w =>
    cases hi : decode w with
    | error why => simp [step, hw, hi]
    | ok i => rw [step_of_decode hw hi, andThen_eq_next]; simp [hi, eq_comm]

/-- A transaction leaves the position alone, so the next position is counted from the state before it. -/
theorem andThen_exec_advance (i : Instr) (s : State) :
    (andThen (exec i s) fun t => .next (advance t)) =
      andThen (exec i s) fun t => .next { t with pos := s.pos + 1 } := by
  cases h : exec i s with
  | next u =>
    obtain ⟨-, -, hpos, -⟩ := exec_keeps h
    simp only [andThen_next, advance, hpos]
  | fault e => rfl
  | refused e => rfl

/-- The word placed as the next transaction is the pending one (log 12). -/
theorem nextWord_withFetchWord (s : State) (w : Word) : nextWord (s.withFetchWord 32 w.toNat) = some w := by
  have hw : BitVec.ofNat 32 (w.toNat % 2 ^ 32) = w := by
    rw [Nat.mod_eq_of_lt w.isLt, BitVec.ofNat_toNat, BitVec.setWidth_eq]
  simp only [nextWord, State.withFetchWord, hw, placeWord_get]

/-- Settles O9: both clauses are `step_of_decode`, with the position counted from the state before. -/
theorem stepRunsTheDecodedTransaction : Obligations.StepRunsTheDecodedTransaction := by
  constructor
  · intro s w i hw hi
    rw [step_of_decode hw hi, andThen_exec_advance]
  · intro s w i hi
    rw [step_of_decode (nextWord_withFetchWord s w) hi, andThen_exec_advance]
    rfl

/-- Settles O19: no transaction touches configuration, program or position, and `advance` moves the position alone. -/
theorem stepsKeepConfigurationAndProgram : Obligations.StepsKeepConfigurationAndProgram := by
  intro s t h
  obtain ⟨hw, rfl⟩ | ⟨w, i, u, hw, -, hu, rfl⟩ := step_eq_next.mp h
  · have hpos : ¬ t.pos < t.program.length := by simpa [nextWord] using hw
    exact ⟨rfl, rfl, by rw [if_neg hpos], ⟨[], by simp⟩, 0, rfl⟩
  · obtain ⟨hticks, hprog, hpos, hevents, hanswers⟩ := exec_keeps hu
    have hlt : s.pos < s.program.length := (List.getElem?_eq_some_iff.mp hw).1
    exact ⟨hticks, hprog, by rw [if_pos hlt, advance_pos, hpos], hevents, hanswers⟩

end Sys2Proof.Machine
end

section
/-! The transcript is write-only: every meaning carries another transcript through unread, and only BUS_WR.SERIAL
appends to it (10_state.md R13, 42_mmu_bus.md R86). -/

namespace Sys2Proof.Machine

/-- The state with another transcript. -/
def withTranscript (tr : List Byte) (s : State) : State := { s with transcript := tr }

theorem memWrite_withTranscript (a : Addr) (v : Byte) (tr : List Byte) (s : State) :
    memWrite a v (withTranscript tr s) = withTranscript tr (memWrite a v s) := rfl

/-- What a transaction appends to the transcript (R86). -/
def serialBytes : Instr → List Byte
  | .busWrSerial v => [v]
  | _ => []

theorem serialBytes_busRdRow (id : RegId) : serialBytes (busRdRow id) = [] := by cases id <;> rfl

theorem serialBytes_busWrRow (id : RegId) (v : Byte) : serialBytes (busWrRow id v) = [] := by cases id <;> rfl

/-! ## Each part of a transaction carries the transcript through, its stops included -/

/-- With another transcript the part answers the same state but for the transcript, or stops as before. -/
def CarriesTranscript (f : State → Result State) : Prop :=
  ∀ tr s, f (withTranscript tr s) = andThen (f s) fun u => .next (withTranscript tr u)

/-- The same for a part that also answers a value. -/
def AnswersDespiteTranscript {α : Type} (f : State → Result (α × State)) : Prop :=
  ∀ tr s, f (withTranscript tr s) = andThen (f s) fun r => .next (r.1, withTranscript tr r.2)

theorem CarriesTranscript.andThen {f g : State → Result State} (hf : CarriesTranscript f)
    (hg : CarriesTranscript g) : CarriesTranscript fun s => andThen (f s) g := by
  intro tr s
  dsimp only
  rw [hf tr s, andThen_assoc, andThen_assoc]
  exact congrArg _ (funext fun u => hg tr u)

theorem AnswersDespiteTranscript.andThen {α : Type} {f : State → Result (α × State)}
    {g : α × State → Result State} (hf : AnswersDespiteTranscript f) (hg : ∀ a, CarriesTranscript fun s => g (a, s)) :
    CarriesTranscript fun s => andThen (f s) g := by
  intro tr s
  dsimp only
  rw [hf tr s, andThen_assoc, andThen_assoc]
  exact congrArg _ (funext fun r => hg r.1 tr r.2)

theorem ask_transcript {α : Type} {q : Query} {answer : State → Result α}
    (h : ∀ tr s, answer (withTranscript tr s) = answer s) : AnswersDespiteTranscript (ask q answer) := by
  intro tr s
  rw [ask, ask, h, andThen_assoc]
  rfl

theorem call_transcript (c : DeviceCall) : CarriesTranscript (call c) := by
  intro tr s
  have hops : callAnswer (withTranscript tr s) = callAnswer s := callAnswer_congr rfl rfl
  rw [call, call, hops, andThen_assoc]
  rfl

theorem callIf_transcript (b : Bool) (c : DeviceCall) : CarriesTranscript (callIf b c) := by
  intro tr s
  rw [callIf_eq, callIf_eq]
  cases b
  · rfl
  · exact call_transcript c tr s

theorem loadCartridge_transcript : CarriesTranscript loadCartridge :=
  (ask_transcript fun _ _ => cartAnswer_congr rfl rfl).andThen fun _ _ _ => rfl

theorem sampleTickSignal_transcript : AnswersDespiteTranscript sampleTickSignal := by
  intro tr s
  have he : AnswersDespiteTranscript (ask .isTimerEnabled enabledAnswer) :=
    ask_transcript fun _ _ => enabledAnswer_congr rfl rfl
  have hr : AnswersDespiteTranscript (ask .getTickRateBit rateBitAnswer) :=
    ask_transcript fun _ _ => rateBitAnswer_congr rfl rfl
  simp only [sampleTickSignal, he tr s, hr tr, andThen_assoc, andThen_next]

theorem cRead_transcript (id : RegId) : AnswersDespiteTranscript (cRead id) := by
  have hj : AnswersDespiteTranscript (ask .getPressedInputs pressedAnswer) :=
    ask_transcript fun _ _ => pressedAnswer_congr rfl rfl
  intro tr s
  by_cases h : id = .JOYP
  · simp only [cRead, cReadJoyp, if_pos h, hj tr s, andThen_assoc, andThen_next]
    rfl
  · simp only [cRead, if_neg h]
    rfl

theorem askTicks_transcript : AnswersDespiteTranscript (ask .getTicksSinceOverflow ticksAnswer) :=
  ask_transcript fun _ _ => ticksAnswer_congr rfl rfl

/-- The end that TMA and IF share: the ticks are asked, and inside the window the timer is called (R74, R76). -/
theorem askTicks_callIf_transcript (c : DeviceCall) :
    CarriesTranscript fun s => andThen (ask .getTicksSinceOverflow ticksAnswer s) fun (t, s) =>
      callIf (inWindow s t) c s :=
  askTicks_transcript.andThen fun t tr s => callIf_transcript (inWindow s t) c tr s

/-- A controlled write carries the transcript through. -/
theorem cWrite_transcript (id : RegId) (v : Byte) : CarriesTranscript (cWrite id v) := by
  cases id
  case DIV | DIVLSB => exact (call_transcript _).andThen fun _ _ => rfl
  case TIMA =>
    exact askTicks_transcript.andThen fun t tr s =>
      callIf_transcript (inWindow s t) .unsetOverflow tr (regWriteIf (inWindow s t) .TIMA v s)
  case TMA => exact fun tr s => askTicks_callIf_transcript (.setTIMA v) tr (regWrite .TMA v s)
  case IF => exact fun tr s => askTicks_callIf_transcript .setIFOverride tr (regWrite .IF v s)
  case TAC =>
    have after_store (before : Bool) :
        CarriesTranscript fun s => andThen (sampleTickSignal s) fun (after, s) =>
          callIf (fallingEdge before after) .checkTIMAUnexpectedIncrease s :=
      sampleTickSignal_transcript.andThen fun after => callIf_transcript _ _
    exact sampleTickSignal_transcript.andThen fun before tr s => after_store before tr (regWrite .TAC v s)
  case LCDC =>
    intro tr s
    have both (off : Bool) : CarriesTranscript fun s =>
        andThen (callIf off .videoReset s) fun s => andThen (callIf off .surfaceClear s) fun s =>
          .next (regWrite .LCDC v s) :=
      (callIf_transcript off _).andThen ((callIf_transcript off _).andThen fun _ _ => rfl)
    exact both (displayTurnedOff (regRead .LCDC s) v) tr s
  case DMA =>
    intro tr s
    simp only [cWrite, cWriteDma]
    split
    · exact call_transcript _ tr (regWrite .DMA v s)
    · rfl
  case BOOT_ROM_DISABLE =>
    intro tr s
    have hlatch : latchTransition (withTranscript tr s) v = latchTransition s v := rfl
    simp only [cWrite, cWriteBootRomDisable, hlatch]
    split
    · exact loadCartridge_transcript tr (regWrite .BOOT_ROM_DISABLE 0x01 s)
    · rfl
  all_goals exact fun _ _ => rfl

/-- What a transaction does is the same whatever the transcript holds, and it appends the serial byte alone (R13). -/
theorem exec_withTranscript (i : Instr) (tr : List Byte) (s : State) :
    exec i (withTranscript tr s) = andThen (exec i s) fun u => .next (withTranscript (tr ++ serialBytes i) u) := by
  refine instr_cases (P := fun i => exec i (withTranscript tr s) =
    andThen (exec i s) fun u => .next (withTranscript (tr ++ serialBytes i) u)) i
    ?rd ?wr ?mem ?rom ?serial ?echoA ?echoB ?plain ?get ?set ?load
  case rd =>
    intro id
    rw [exec_busRdRow, exec_busRdRow, serialBytes_busRdRow, List.append_nil]
    exact (cRead_transcript id).andThen (fun _ _ _ => rfl) tr s
  case wr =>
    intro id v
    rw [exec_busWrRow, exec_busWrRow, serialBytes_busWrRow, List.append_nil]
    exact (cWrite_transcript id v).andThen (fun _ _ => rfl) tr s
  case load =>
    rw [show serialBytes .loadCart = [] from rfl, List.append_nil]
    exact loadCartridge_transcript.andThen (fun _ _ => rfl) tr s
  case serial =>
    intro v
    have he : ∀ s, exec (.busWrSerial v) s = returnNone (busStore serialAddr v (appendTranscript v s)) :=
      execBusWrSerial_eq v
    rw [he, he]
    rfl
  case echoA | echoB =>
    intro a v
    simp only [serialBytes, List.append_nil, exec, execBusWrEchoA, execBusWrEchoB, memWrite_withTranscript]
    rfl
  all_goals
    intros
    simp only [serialBytes, List.append_nil]
    rfl

/-- A transaction leaves the transcript followed by the serial byte, if it is a serial write (R13, R86). -/
theorem exec_transcript {i : Instr} {s u : State} (h : exec i s = .next u) :
    u.transcript = s.transcript ++ serialBytes i := by
  have hu := exec_withTranscript i s.transcript s
  rw [show withTranscript s.transcript s = s from rfl, h, andThen_next, Host.Outcome.next.injEq] at hu
  rw [hu]
  rfl

/-- Settles O16: the run with the other transcript is the one `exec_withTranscript` gives. -/
theorem transcriptIsNeverReadBack : Obligations.TranscriptIsNeverReadBack := by
  intro i s u tr h
  refine ⟨tr ++ serialBytes i, ?_⟩
  have hu := exec_withTranscript i tr s
  rwa [h] at hu

/-! ## Which words are serial writes -/

/-- A read row appends nothing. -/
theorem serialBytes_decodeRead (a : Addr) : serialBytes (decodeRead a) = [] := by
  rw [decodeRead]
  split
  · exact serialBytes_busRdRow _
  · rfl

/-- Among the write rows only the one at `SERIAL_ADDR` appends, and it appends the data byte (R61, R86). -/
theorem serialBytes_decodeWrite (a : Addr) (v : Byte) :
    serialBytes (decodeWrite a v) = if a = serialAddr then [v] else [] := by
  by_cases ha : a = serialAddr
  · subst ha
    rfl
  · rw [if_neg ha, decodeWrite, if_neg ha]
    split
    · rfl
    · split
      · exact serialBytes_busWrRow _ _
      · split
        · rfl
        · split <;> rfl

/-- Bits 31:24 are 0x20 exactly for `OP` 2 and `RSV` 0 (30_encoding.md R54). -/
theorem busWr_bits_iff {w : Word} : w.toNat / 2 ^ 24 = 0x20 ↔ fieldOp w = 2 ∧ fieldRsv w = 0 := by
  rw [← BitVec.toNat_inj, ← BitVec.toNat_inj, fieldOp_toNat, fieldRsv_toNat]
  simp only [BitVec.ofNat_eq_ofNat, BitVec.toNat_ofNat]
  omega

theorem serialAddr_bits_iff {w : Word} :
    w.toNat / 2 ^ 8 % 2 ^ 16 = serialAddr.toNat ↔ fieldAddr w = serialAddr := by
  rw [← BitVec.toNat_inj, fieldAddr_toNat]

theorem ofNat_toNat_eq_fieldData (w : Word) : BitVec.ofNat 8 w.toNat = fieldData w :=
  BitVec.eq_of_toNat_eq (by rw [fieldData_toNat, BitVec.toNat_ofNat])

/-- A word that decodes has `RSV` 0; only `OP` 1 and `OP` 2 reach the bus rows (R54, R56). -/
theorem decode_eq_ok {w : Word} {i : Instr} (h : decode w = .ok i) :
    fieldRsv w = 0 ∧
      ((fieldOp w = 1 ∧ i = decodeRead (fieldAddr w)) ∨
        (fieldOp w = 2 ∧ i = decodeWrite (fieldAddr w) (fieldData w)) ∨
        (∃ id, i = .regGet id) ∨ (∃ id, i = .regSet id (fieldData w)) ∨ i = .loadCart) := by
  have hop : 1 ≤ (fieldOp w).toNat ∧ (fieldOp w).toNat ≤ 5 := by
    by_contra hr
    rw [decode, if_pos hr] at h
    cases h
  have hrsv : fieldRsv w = 0 := by
    by_contra hr
    rw [decode, if_neg (not_not.mpr hop), if_pos hr] at h
    cases h
  rw [decode, if_neg (not_not.mpr hop), if_neg (not_not.mpr hrsv)] at h
  refine ⟨hrsv, ?_⟩
  by_cases h1 : fieldOp w = 1
  · rw [if_pos h1] at h
    split at h <;> cases h
    exact .inl ⟨h1, rfl⟩
  by_cases h2 : fieldOp w = 2
  · rw [if_neg h1, if_pos h2] at h
    cases h
    exact .inr (.inl ⟨h2, rfl⟩)
  rw [if_neg h1, if_neg h2] at h
  refine .inr (.inr ?_)
  split at h
  case isTrue =>
    split at h
    · cases h
    · split at h
      · cases h
      · split at h <;> cases h
        exact .inl ⟨_, rfl⟩
  case isFalse =>
    split at h
    · split at h
      · cases h
      · split at h <;> cases h
        exact .inr (.inl ⟨_, rfl⟩)
    · split at h <;> cases h
      exact .inr (.inr rfl)

/-- What the decoded transaction appends, by the fields of its word: only `OP` 2 reaches a write row. -/
theorem serialBytes_of_decode {w : Word} {i : Instr} (h : decode w = .ok i) :
    serialBytes i =
      if (fieldOp w = 2 ∧ fieldRsv w = 0) ∧ fieldAddr w = serialAddr then [fieldData w] else [] := by
  by_cases hop : fieldOp w = 2 ∧ fieldRsv w = 0
  · obtain ⟨h2, h0⟩ := hop
    rw [← wordOf_fields h0, h2] at h
    rw [show i = decodeWrite (fieldAddr w) (fieldData w) from
      (Except.ok.inj ((decode_wordWrite _ _).symm.trans h)).symm, serialBytes_decodeWrite]
    simp only [h2, h0, true_and]
  · rw [if_neg fun hs => hop hs.1]
    obtain ⟨hrsv, ⟨-, rfl⟩ | ⟨h2, -⟩ | ⟨id, rfl⟩ | ⟨id, rfl⟩ | rfl⟩ := decode_eq_ok h
    · exact serialBytes_decodeRead _
    · exact absurd ⟨h2, hrsv⟩ hop
    all_goals rfl

/-- Settles O15: a step appends what `exec_transcript` says, and `serialBytes_of_decode` reads that off the word. -/
theorem transcriptGrowsOnlyBySerialWrites : Obligations.TranscriptGrowsOnlyBySerialWrites := by
  refine ⟨fun s t h => ?_, fun _ _ => rfl⟩
  obtain ⟨hw, rfl⟩ | ⟨w, i, u, hw, hi, hu, rfl⟩ := step_eq_next.mp h
  · rw [show t.program[t.pos]? = none from hw]
    simp
  · rw [show s.program[s.pos]? = some w from hw]
    simp only [busWr_bits_iff, serialAddr_bits_iff, ofNat_toNat_eq_fieldData]
    rw [advance_transcript, exec_transcript hu, serialBytes_of_decode hi]

end Sys2Proof.Machine
end

section
/-! What a register's controlled access is made of, said once (41_register_quirks.md); then which devices it asks and
calls (10_state.md R18, R34). -/

namespace Sys2Proof.Machine

/-- One part of a register's controlled access: a store, or a query or call of one of the devices in `ds`. The latch is
stored only by its transition (R82); a load is the memory part of `LoadCartridge()`, whose query is a part of its own. -/
inductive AccessStep (ds : List Device) : State → State → Prop
  | store {id : RegId} (v : Byte) (s : State) (hid : id ≠ .BOOT_ROM_DISABLE) : AccessStep ds s (regWrite id v s)
  | setLatch (s : State) (h : latchSet s = false) : AccessStep ds s (regWrite .BOOT_ROM_DISABLE 0x01 s)
  | query {q : Query} (s : State) (hq : queryDevice q ∈ ds) : AccessStep ds s (record (.asked q) (consume s))
  | call {c : DeviceCall} (ops : List PortOp) (s : State) (hc : callDevice c ∈ ds) :
      AccessStep ds s (runPortOps ops (record (.called c) (consume s)))
  | load (cart : CartAnswer) (s : State) : AccessStep ds s { s with mem := Memory.load s.mem cart }

/-- The parts of a controlled access in sequence. -/
abbrev Access (ds : List Device) : State → State → Prop := Relation.ReflTransGen (AccessStep ds)

section

variable {ds : List Device} {s u : State}

theorem Access.of_ask {α : Type} {q : Query} {answer : State → Result α} {a : α} (hq : queryDevice q ∈ ds)
    (h : ask q answer s = .next (a, u)) : Access ds s u := by
  obtain ⟨b, -, hb⟩ := ask_eq_next.mp h
  cases hb
  exact .single (.query s hq)

theorem Access.of_call {c : DeviceCall} (hc : callDevice c ∈ ds) (h : call c s = .next u) : Access ds s u := by
  obtain ⟨ops, -, rfl⟩ := call_eq_next.mp h
  exact .single (.call ops s hc)

theorem Access.of_callIf {b : Bool} {c : DeviceCall} (hc : callDevice c ∈ ds) (h : callIf b c s = .next u) :
    Access ds s u := by
  rw [callIf_eq] at h
  split at h
  · exact Access.of_call hc h
  · cases h; exact .refl

theorem Access.of_regWriteIf {id : RegId} (b : Bool) (v : Byte) (s : State) (hid : id ≠ .BOOT_ROM_DISABLE) :
    Access ds s (regWriteIf b id v s) := by
  cases b
  · exact .refl
  · exact .single (.store v s hid)

theorem Access.of_loadCartridge (hd : .cartridge ∈ ds) (h : loadCartridge s = .next u) : Access ds s u := by
  obtain ⟨cart, -, rfl⟩ := loadCartridge_eq_next.mp h
  exact .tail (.single (.query (q := .cartRead) s hd)) (.load cart _)

theorem Access.of_sampleTickSignal {b : Bool} (hd : .timer ∈ ds) (h : sampleTickSignal s = .next (b, u)) :
    Access ds s u := by
  simp only [sampleTickSignal, andThen_eq_next] at h
  obtain ⟨⟨e, t⟩, he, ⟨r, t'⟩, hr, h⟩ := h
  cases h
  exact (Access.of_ask (q := .isTimerEnabled) hd he).trans (Access.of_ask (q := .getTickRateBit) hd hr)

/-- The controlled read of a register asks only the devices the register binds (R66, R69). -/
theorem Access.of_cRead {id : RegId} {v : Byte} (h : cRead id s = .next (v, u)) : Access (deviceRefs id) s u := by
  rw [cRead] at h
  split at h
  · next hid =>
    subst hid
    simp only [cReadJoyp, andThen_eq_next] at h
    obtain ⟨⟨ps, t⟩, ht, h⟩ := h
    cases h
    exact Access.of_ask (by decide) ht
  · cases h; exact .refl

/-- The controlled write of a register stores registers, and asks and calls only the devices the register binds; the
latch is stored only from "not set" (R70 to R82). -/
theorem Access.of_cWrite {id : RegId} {v : Byte} (h : cWrite id v s = .next u) : Access (deviceRefs id) s u := by
  cases id
  case DIV | DIVLSB =>
    simp only [cWrite, cWriteDivider, andThen_eq_next] at h
    obtain ⟨t, ht, h⟩ := h
    cases h
    exact ((Access.of_call (by decide) ht).tail (.store _ _ (by decide))).tail (.store _ _ (by decide))
  case TIMA =>
    simp only [cWrite, cWriteTima, andThen_eq_next] at h
    obtain ⟨⟨n, t⟩, ht, h⟩ := h
    exact (Access.of_ask (by decide) ht).trans
      ((Access.of_regWriteIf _ v t (by decide)).trans (Access.of_callIf (by decide) h))
  case TMA | IF =>
    simp only [cWrite, cWriteTma, cWriteIf, andThen_eq_next] at h
    obtain ⟨⟨n, t⟩, ht, h⟩ := h
    exact .head (.store v s (by decide))
      ((Access.of_ask (by decide) ht).trans (Access.of_callIf (by simp [callDevice, deviceRefs]) h))
  case TAC =>
    simp only [cWrite, cWriteTac, andThen_eq_next] at h
    obtain ⟨⟨b0, t⟩, ht, ⟨b1, t'⟩, ht', h⟩ := h
    exact (Access.of_sampleTickSignal (by decide) ht).trans
      (.head (.store v t (by decide))
        ((Access.of_sampleTickSignal (by decide) ht').trans (Access.of_callIf (by decide) h)))
  case LCDC =>
    simp only [cWrite, cWriteLcdc, andThen_eq_next] at h
    obtain ⟨t, ht, t', ht', h⟩ := h
    cases h
    exact ((Access.of_callIf (by decide) ht).trans (Access.of_callIf (by decide) ht')).tail (.store v t' (by decide))
  case DMA =>
    simp only [cWrite, cWriteDma] at h
    split at h
    · exact .head (.store v s (by decide)) (Access.of_call (by simp [callDevice, deviceRefs]) h)
    · cases h; exact .refl
  case BOOT_ROM_DISABLE =>
    simp only [cWrite, cWriteBootRomDisable] at h
    split at h
    · next htr =>
      have hclear : latchSet s = false := by
        simp only [latchTransition, Bool.and_eq_true, Bool.not_eq_true'] at htr
        exact htr.1
      exact .head (.setLatch s hclear) (Access.of_loadCartridge (by decide) h)
    · cases h; exact .refl
  all_goals
    cases h
    exact .single (.store _ s (by decide))

/-! ## Which devices are asked and called -/

/-- The events appended between two states concern only devices in `ds`. -/
def EventsOf (ds : List Device) (s u : State) : Prop :=
  ∃ es, u.events = s.events ++ es ∧ ∀ e ∈ es, ∀ d, eventDevice e = some d → d ∈ ds

theorem EventsOf.of_events_eq (h : u.events = s.events) : EventsOf ds s u := ⟨[], by simpa using h, nofun⟩

theorem EventsOf.trans {t : State} (h : EventsOf ds s t) (h' : EventsOf ds t u) : EventsOf ds s u := by
  obtain ⟨es, hes, hd⟩ := h
  obtain ⟨fs, hfs, hd'⟩ := h'
  exact ⟨es ++ fs, by rw [hfs, hes, List.append_assoc],
    fun e he => (List.mem_append.mp he).elim (hd e) (hd' e)⟩

/-- A device-port access made inside a call concerns no device (R93). -/
theorem eventDevice_of_mem_portEvents {ops : List PortOp} {m : Memory} {e : Event} (h : e ∈ portEvents ops m) :
    eventDevice e = none := by
  induction ops generalizing m with
  | nil => cases h
  | cons o ops ih =>
    cases o <;>
    · rcases List.mem_cons.mp h with rfl | h
      · rfl
      · exact ih h

theorem AccessStep.eventsOf (h : AccessStep ds s u) : EventsOf ds s u := by
  cases h with
  | store | setLatch | load => exact .of_events_eq rfl
  | query _ hq =>
    refine ⟨_, rfl, fun e he d hd => ?_⟩
    rw [List.mem_singleton.mp he] at hd
    cases hd
    exact hq
  | call ops _ hc =>
    refine ⟨_, List.append_assoc .., fun e he d hd => ?_⟩
    rcases List.mem_append.mp he with he | he
    · rw [List.mem_singleton.mp he] at hd
      cases hd
      exact hc
    · rw [eventDevice_of_mem_portEvents he] at hd
      cases hd

theorem Access.eventsOf (h : Access ds s u) : EventsOf ds s u := by
  induction h with
  | refl => exact .of_events_eq rfl
  | tail _ hstep ih => exact ih.trans hstep.eventsOf

end

/-- Settles O20: both rows of a register are accesses of the devices it binds, and the read data adds no event. -/
theorem registersCallOnlyTheDevicesTheyBind : Obligations.RegistersCallOnlyTheDevicesTheyBind := by
  intro id i s u hi h
  show EventsOf (deviceRefs id) s u
  obtain rfl | ⟨v, rfl⟩ := hi
  · rw [exec_busRdRow, andThen_eq_next] at h
    obtain ⟨⟨v, t⟩, ht, h⟩ := h
    cases h
    exact (Access.of_cRead ht).eventsOf
  · rw [exec_busWrRow, andThen_eq_next] at h
    obtain ⟨t, ht, h⟩ := h
    cases h
    exact (Access.of_cWrite ht).eventsOf

end Sys2Proof.Machine
end

section
/-! Nothing on the bus resets the boot latch (10_state.md R33, 41_register_quirks.md R82). -/

namespace Sys2Proof.Machine

section

variable {ds : List Device} {s u : State}

/-- Between the two states a set latch stays set, unless a device-port write made inside a call stores it. -/
def KeepsLatch (s u : State) : Prop :=
  ∃ es, u.events = s.events ++ es ∧
    ((∀ v, Event.portSet .BOOT_ROM_DISABLE v ∉ es) → latchSet s = true → latchSet u = true)

/-- The latch is read off its own cell (R16, R33). -/
theorem latchSet_congr (h : memRead (regAddr .BOOT_ROM_DISABLE) u = memRead (regAddr .BOOT_ROM_DISABLE) s) :
    latchSet u = latchSet s := by
  simp only [latchSet, regRead_eq, h]

theorem KeepsLatch.of_cell (he : u.events = s.events)
    (h : memRead (regAddr .BOOT_ROM_DISABLE) u = memRead (regAddr .BOOT_ROM_DISABLE) s) : KeepsLatch s u :=
  ⟨[], by simpa using he, fun _ hs => (latchSet_congr h).trans hs⟩

theorem KeepsLatch.trans {t : State} (h : KeepsLatch s t) (h' : KeepsLatch t u) : KeepsLatch s u := by
  obtain ⟨es, hes, hl⟩ := h
  obtain ⟨fs, hfs, hl'⟩ := h'
  refine ⟨es ++ fs, by rw [hfs, hes, List.append_assoc], fun hno hs => ?_⟩
  simp only [List.mem_append, not_or] at hno
  exact hl' (fun v => (hno v).2) (hl (fun v => (hno v).1) hs)

theorem KeepsLatch.of_memWrite {a : Addr} (v : Byte) (s : State) (ha : a ≠ regAddr .BOOT_ROM_DISABLE) :
    KeepsLatch s (memWrite a v s) := .of_cell rfl (Memory.read_write_other ha.symm)

/-- Device-port accesses that do not store the latch leave its cell (R92). -/
theorem read_latch_afterPortOps {ops : List PortOp} {m : Memory}
    (h : ∀ v, Event.portSet .BOOT_ROM_DISABLE v ∉ portEvents ops m) :
    Memory.read (Memory.afterPortOps ops m) (regAddr .BOOT_ROM_DISABLE) =
      Memory.read m (regAddr .BOOT_ROM_DISABLE) := by
  induction ops generalizing m with
  | nil => rfl
  | cons o ops ih =>
    cases o with
    | get id => exact ih fun v hv => h v (List.mem_cons_of_mem _ hv)
    | set id w =>
      have hid : .BOOT_ROM_DISABLE ≠ id := by
        rintro rfl
        exact h w List.mem_cons_self
      exact (ih fun v hv => h v (List.mem_cons_of_mem _ hv)).trans
        (Memory.read_write_other (mt regAddr_injective hid))

theorem AccessStep.keepsLatch (h : AccessStep ds s u) : KeepsLatch s u := by
  cases h with
  | store v _ hid => exact .of_memWrite v s (mt regAddr_injective hid)
  | setLatch _ hclear => exact ⟨[], by simp, fun _ hs => by rw [hclear] at hs; cases hs⟩
  | query => exact ⟨_, rfl, fun _ hs => hs⟩
  | call ops _ _ =>
    refine ⟨_, List.append_assoc .., fun hno hs => (latchSet_congr ?_).trans hs⟩
    exact read_latch_afterPortOps fun v hv => hno v (List.mem_append_right _ hv)
  | load cart _ => exact .of_cell rfl (Memory.read_load_high cart (by decide))

theorem Access.keepsLatch (h : Access ds s u) : KeepsLatch s u := by
  induction h with
  | refl => exact .of_cell rfl rfl
  | tail _ hstep ih => exact ih.trans hstep.keepsLatch

theorem KeepsLatch.of_returnNone {t : State} (ht : KeepsLatch s t) (h : returnNone t = .next u) :
    KeepsLatch s u := by
  cases h
  exact ht

theorem KeepsLatch.of_returnByte {t : State} {v : Byte} (ht : KeepsLatch s t) (h : returnByte v t = .next u) :
    KeepsLatch s u := by
  cases h
  exact ht

/-- What being in a region says of an address (20_memory.md R41). -/
def InRegion (a : Addr) : Region → Prop
  | .rom => inRom a = true
  | .reg id => a = regAddr id
  | .echoA => inEchoA a = true
  | .echoB => inEchoB a = true
  | .plain => ∀ id, a ≠ regAddr id

theorem inRegion_region (a : Addr) : InRegion a (region a) := by
  rw [region]
  split
  · assumption
  · split
    · next hr => exact regAddr_of_regAt hr
    · next hr =>
      split
      · assumption
      · split
        · assumption
        · exact regAt_eq_none.mp hr

theorem inRegion_of_beq {a : Addr} {r : Region} (h : (region a == r) = true) : InRegion a r :=
  eq_of_beq h ▸ inRegion_region a

/-- Both cells of a write in the low echo range lie below the registers (R89). -/
theorem echoA_cells_low {a : Addr} (h : inEchoA a = true) :
    a.toNat < 0xFF00 ∧ (a + echoOffset).toNat < 0xFF00 := by
  simp only [inEchoA, Bool.and_eq_true, decide_eq_true_eq] at h
  rw [BitVec.toNat_add, show echoOffset.toNat = 0x2000 from rfl]
  omega

/-- Both cells of a write in the high echo range lie below the registers (R90). -/
theorem echoB_cells_low {a : Addr} (h : inEchoB a = true) :
    a.toNat < 0xFF00 ∧ (a - echoOffset).toNat < 0xFF00 := by
  simp only [inEchoB, Bool.and_eq_true, decide_eq_true_eq] at h
  rw [BitVec.toNat_sub, show echoOffset.toNat = 0x2000 from rfl]
  omega

/-- A write of two cells below the registers keeps the latch. -/
theorem KeepsLatch.of_two_writes {a b : Addr} (v : Byte) (s : State) (ha : a.toNat < 0xFF00) (hb : b.toNat < 0xFF00) :
    KeepsLatch s (memWrite b v (memWrite a v s)) :=
  (KeepsLatch.of_memWrite v s (ne_regAddr_of_low ha _)).trans (.of_memWrite v _ (ne_regAddr_of_low hb _))

/-- A well-formed transaction that is not the device port's write of the latch keeps it set (R33). -/
theorem exec_keepsLatch {i : Instr} (hi : wellFormed i = true) (hset : ∀ v, i ≠ .regSet .BOOT_ROM_DISABLE v)
    (h : exec i s = .next u) : KeepsLatch s u := by
  have same : KeepsLatch s s := .of_cell rfl rfl
  revert hi hset h
  refine instr_cases (P := fun i => wellFormed i = true → (∀ v, i ≠ .regSet .BOOT_ROM_DISABLE v) →
    exec i s = .next u → KeepsLatch s u) i ?rd ?wr ?mem ?rom ?serial ?echoA ?echoB ?plain ?get ?set ?load
  case rd =>
    intro id _ _ h
    rw [exec_busRdRow, andThen_eq_next] at h
    obtain ⟨⟨v, t⟩, ht, h⟩ := h
    exact (Access.of_cRead ht).keepsLatch.of_returnByte h
  case wr =>
    intro id v _ _ h
    rw [exec_busWrRow, andThen_eq_next] at h
    obtain ⟨t, ht, h⟩ := h
    exact (Access.of_cWrite ht).keepsLatch.of_returnNone h
  case load =>
    intro _ _ h
    obtain ⟨t, ht, h⟩ := andThen_eq_next.mp h
    exact (Access.of_loadCartridge (List.mem_singleton_self _) ht).keepsLatch.of_returnNone h
  case serial =>
    intro v _ _ h
    have hs : KeepsLatch s (busStore serialAddr v (appendTranscript v s)) :=
      .of_cell rfl (Memory.read_write_other (regAddr_ne_serial _))
    exact hs.of_returnNone ((execBusWrSerial_eq v s).symm.trans h)
  case echoA =>
    intro a v hi _ h
    obtain ⟨ha, hb⟩ := echoA_cells_low (inRegion_of_beq hi)
    exact (KeepsLatch.of_two_writes v s ha hb).of_returnNone h
  case echoB =>
    intro a v hi _ h
    obtain ⟨ha, hb⟩ := echoB_cells_low (inRegion_of_beq hi)
    exact (KeepsLatch.of_two_writes v s ha hb).of_returnNone h
  case plain =>
    intro a v hi _ h
    have ha : ∀ id, a ≠ regAddr id := inRegion_of_beq (Bool.and_eq_true_iff.mp hi).1
    exact (KeepsLatch.of_memWrite v s (ha _)).of_returnNone h
  case set =>
    intro id v _ hset h
    have hid : id ≠ .BOOT_ROM_DISABLE := by
      rintro rfl
      exact hset v rfl
    exact (KeepsLatch.of_memWrite v s (mt regAddr_injective hid)).of_returnNone h
  case rom => exact fun _ _ _ _ h => same.of_returnNone h
  case mem => exact fun _ _ _ h => same.of_returnByte h
  case get => exact fun _ _ _ h => same.of_returnByte h

end

/-- Settles O22: the events appended are those that `exec_keepsLatch` looks through for a store of the latch. -/
theorem bootLatchIsOneWayOnTheBus : Obligations.BootLatchIsOneWayOnTheBus := by
  intro i s u _ hi h hs hset hcalls
  obtain ⟨es, hes, hl⟩ := exec_keepsLatch hi hset h
  rw [hes, List.drop_left] at hcalls
  exact hl hcalls hs

end Sys2Proof.Machine
end

section
/-! Which row a bus address selects (20_memory.md R41, 30_encoding.md R60, R61), and that every decoded
transaction is well formed. -/

namespace Sys2Proof.Machine

/-! ## The ranges and the regions -/

theorem inRom_iff {a : Addr} : inRom a = true ↔ a.toNat ≤ 0x7FFF := decide_eq_true_iff

theorem inEchoA_iff {a : Addr} : inEchoA a = true ↔ 0xC000 ≤ a.toNat ∧ a.toNat ≤ 0xDDFF := by simp [inEchoA]

theorem inEchoB_iff {a : Addr} : inEchoB a = true ↔ 0xE000 ≤ a.toNat ∧ a.toNat ≤ 0xFDFF := by simp [inEchoB]

/-- Where no register is bound the region is told by the ranges alone (R41). -/
theorem region_of_no_register {a : Addr} (h : ∀ id, a ≠ regAddr id) :
    region a = if inRom a then .rom else if inEchoA a then .echoA else if inEchoB a then .echoB else .plain := by
  rw [region, regAt_eq_none.mpr h]

theorem region_eq_rom {a : Addr} (h : a.toNat ≤ 0x7FFF) : region a = .rom := by
  rw [region, if_pos (inRom_iff.mpr h)]

theorem region_eq_echoA {a : Addr} (h : 0xC000 ≤ a.toNat ∧ a.toNat ≤ 0xDDFF) : region a = .echoA := by
  rw [region_of_no_register (ne_regAddr_of_low (by omega)), if_neg (by rw [inRom_iff]; omega),
    if_pos (inEchoA_iff.mpr h)]

theorem region_eq_echoB {a : Addr} (h : 0xE000 ≤ a.toNat ∧ a.toNat ≤ 0xFDFF) : region a = .echoB := by
  rw [region_of_no_register (ne_regAddr_of_low (by omega)), if_neg (by rw [inRom_iff]; omega),
    if_neg (by rw [inEchoA_iff]; omega), if_pos (inEchoB_iff.mpr h)]

/-- The plain region is what neither ROM, an echo range nor a register takes (R41). -/
theorem region_eq_plain {a : Addr} :
    region a = .plain ↔ (∀ id, a ≠ regAddr id) ∧ inRom a = false ∧ inEchoA a = false ∧ inEchoB a = false := by
  constructor
  · intro h
    have hreg : ∀ id, a ≠ regAddr id := inRegion_of_beq (beq_iff_eq.mpr h)
    rw [region_of_no_register hreg] at h
    split_ifs at h with hrom hA hB
    simp [hreg, hrom, hA, hB]
  · rintro ⟨hreg, hrom, hA, hB⟩
    simp [region_of_no_register hreg, hrom, hA, hB]

theorem region_eq_plain_of_ranges {a : Addr} (hreg : ∀ id, a ≠ regAddr id) (hrom : 0x8000 ≤ a.toNat)
    (hA : ¬ (0xC000 ≤ a.toNat ∧ a.toNat ≤ 0xDDFF)) (hB : ¬ (0xE000 ≤ a.toNat ∧ a.toNat ≤ 0xFDFF)) :
    region a = .plain := by
  refine region_eq_plain.mpr ⟨hreg, ?_, ?_, ?_⟩
  · rw [← Bool.not_eq_true, inRom_iff]; omega
  · rwa [← Bool.not_eq_true, inEchoA_iff]
  · rwa [← Bool.not_eq_true, inEchoB_iff]

/-! ## The rows -/

/-- The row of a bus write by the region of its address, the serial port apart (R61, R84). -/
def writeRow (a : Addr) (v : Byte) : Region → Instr
  | .rom => .busWrRom a v
  | .reg id => busWrRow id v
  | .echoA => .busWrEchoA a v
  | .echoB => .busWrEchoB a v
  | .plain => .busWrPlain a v

/-- Away from the serial port a bus write selects the row of its region. -/
theorem decodeWrite_eq_writeRow {a : Addr} (v : Byte) (h : a ≠ serialAddr) :
    decodeWrite a v = writeRow a v (region a) := by
  rw [decodeWrite, region, if_neg h]
  cases inRom a
  · cases regAt a with
    | some id => rfl
    | none => cases inEchoA a <;> cases inEchoB a <;> rfl
  · rfl

theorem decodeRead_of_no_register {a : Addr} (h : ∀ id, a ≠ regAddr id) : decodeRead a = .busRdMem a := by
  simp only [decodeRead, regAt_eq_none.mpr h]

theorem decodeWrite_serial (v : Byte) : decodeWrite serialAddr v = .busWrSerial v := rfl

/-- The serial port lies at 0xFF01, so an address below 0xFF00 is another (D33). -/
theorem ne_serialAddr_of_low {a : Addr} (h : a.toNat < 0xFF00) : a ≠ serialAddr := by
  rintro rfl
  exact absurd h (by decide)

/-- Settles O6: every write clause fixes the region of its address. -/
theorem busAddressesSelectTheirRows : Obligations.BusAddressesSelectTheirRows := by
  intro a v
  have row {r : Region} (hs : a ≠ serialAddr) (hr : region a = r) : decodeWrite a v = writeRow a v r :=
    hr ▸ decodeWrite_eq_writeRow v hs
  have low {r : Region} (h : a.toNat < 0xFF00) : region a = r → decodeWrite a v = writeRow a v r :=
    row (ne_serialAddr_of_low h)
  have low_plain (h : a.toNat < 0xFF00) := region_eq_plain_of_ranges (ne_regAddr_of_low h)
  refine ⟨?reg, decodeRead_of_no_register, ?rom, ?vram, ?echoA, ?gap, ?echoB, ?serial, ?high⟩
  case reg =>
    rintro id rfl
    exact ⟨decodeRead_regAddr id, decodeWrite_regAddr id v⟩
  case rom => exact fun h => low (by omega) (region_eq_rom h)
  case vram => exact fun h => low (by omega) (low_plain (by omega) (by omega) (by omega) (by omega))
  case echoA => exact fun h => low (by omega) (region_eq_echoA h)
  case gap => exact fun h => low (by omega) (low_plain (by omega) (by omega) (by omega) (by omega))
  case echoB => exact fun h => low (by omega) (region_eq_echoB h)
  case serial =>
    rintro rfl
    exact decodeWrite_serial v
  case high =>
    rintro ⟨h, hs, hreg⟩
    exact row hs (region_eq_plain_of_ranges hreg (by omega) (by omega) (by omega))

/-! ## What decodes is well formed -/

theorem wellFormed_decodeRead (a : Addr) : wellFormed (decodeRead a) = true := by
  cases h : regAt a with
  | some id => rw [regAddr_of_regAt h, decodeRead_regAddr, wellFormed_busRdRow]
  | none => rw [decodeRead_of_no_register (regAt_eq_none.mp h), wellFormed, h]; rfl

theorem wellFormed_decodeWrite (a : Addr) (v : Byte) : wellFormed (decodeWrite a v) = true := by
  by_cases hs : a = serialAddr
  · rw [hs]; rfl
  · rw [decodeWrite_eq_writeRow v hs]
    cases hr : region a with
    | rom => exact (inRegion_of_beq (beq_iff_eq.mpr hr) :)
    | reg id => exact wellFormed_busWrRow id v
    | echoA | echoB => exact beq_iff_eq.mpr hr
    | plain => simp [writeRow, wellFormed, hr, hs]

/-- Every word that decodes gives a well-formed transaction (R60, R61). -/
theorem wellFormed_of_decode {w : Word} {i : Instr} (h : decode w = .ok i) : wellFormed i = true := by
  obtain ⟨-, ⟨-, rfl⟩ | ⟨-, rfl⟩ | ⟨id, rfl⟩ | ⟨id, rfl⟩ | rfl⟩ := decode_eq_ok h
  · exact wellFormed_decodeRead _
  · exact wellFormed_decodeWrite _ _
  all_goals rfl

end Sys2Proof.Machine
end

section
/-! What a well-formed transaction can do to MEM, said once (20_memory.md R42, R43): plain stores outside ROM and the
echo ranges, mirrored stores, and cartridge loads. -/

namespace Sys2Proof.Machine

/-! ## The echo ranges -/

theorem inEchoB_add {a : Addr} (h : inEchoA a = true) : inEchoB (a + echoOffset) = true := by
  rw [inEchoA_iff] at h
  rw [inEchoB_iff, BitVec.toNat_add, show echoOffset.toNat = 0x2000 from rfl]
  omega

theorem inEchoA_sub {a : Addr} (h : inEchoB a = true) : inEchoA (a - echoOffset) = true := by
  rw [inEchoB_iff] at h
  rw [inEchoA_iff, BitVec.toNat_sub, show echoOffset.toNat = 0x2000 from rfl]
  omega

theorem not_inEchoB_of_inEchoA {a : Addr} (h : inEchoA a = true) : inEchoB a = false := by
  rw [inEchoA_iff] at h
  rw [← Bool.not_eq_true, inEchoB_iff]
  omega

theorem not_inRom_of_inEchoA {a : Addr} (h : inEchoA a = true) : inRom a = false := by
  rw [inEchoA_iff] at h
  rw [← Bool.not_eq_true, inRom_iff]
  omega

theorem not_inRom_of_inEchoB {a : Addr} (h : inEchoB a = true) : inRom a = false := by
  rw [inEchoB_iff] at h
  rw [← Bool.not_eq_true, inRom_iff]
  omega

/-- From 0xFE00 on there is neither ROM nor an echo range (R41). -/
theorem plain_of_high {a : Addr} (h : 0xFE00 ≤ a.toNat) : inRom a = false ∧ inEchoA a = false ∧ inEchoB a = false := by
  simp only [← Bool.not_eq_true, inRom_iff, inEchoA_iff, inEchoB_iff]
  omega

/-! ## The stores and the loads of a transaction -/

/-- `P` is kept by a store outside ROM and the echo ranges, and by a store mirrored in the echo ranges, in either order. -/
structure KeptByStores (P : Memory → Prop) : Prop where
  plain : ∀ {a : Addr} (v : Byte) {m : Memory}, inRom a = false ∧ inEchoA a = false ∧ inEchoB a = false →
    P m → P (Memory.write m a v)
  echo : ∀ {a : Addr} (v : Byte) {m : Memory}, inEchoA a = true → P m →
    P (Memory.write (Memory.write m a v) (a + echoOffset) v) ∧
    P (Memory.write (Memory.write m (a + echoOffset) v) a v)

/-- Every register lies where the plain store's clause reaches (D33). -/
theorem KeptByStores.regWrite {P : Memory → Prop} (hP : KeptByStores P) (id : RegId) (v : Byte) (m : Memory)
    (hm : P m) : P (Memory.regWrite m id v) :=
  hP.plain v (plain_of_high ((by decide : 0xFE00 ≤ 0xFF00).trans (regAddr_high id))) hm

/-- The transactions that load the cartridge: LOAD_CART, and the bus write that sets the latch (R82, R97). -/
def Loads (i : Instr) (s : State) : Prop :=
  i = .loadCart ∨ (i = .busWrBootRomDisable 0x01 ∧ latchSet s = false)

theorem latchTransition_eq_true {s : State} {v : Byte} :
    latchTransition s v = true ↔ v = 0x01 ∧ latchSet s = false := by
  simp [latchTransition, and_comm]

/-- A controlled read leaves MEM and the transcript alone (R48, R66, R69). -/
theorem cRead_keeps {id : RegId} {s u : State} {v : Byte} (h : cRead id s = .next (v, u)) :
    u.mem = s.mem ∧ u.transcript = s.transcript := by
  rw [cRead] at h
  split at h
  · obtain ⟨hframe, hmem⟩ := cReadJoyp_frame h
    exact ⟨hmem, hframe.transcript⟩
  · cases h; exact ⟨rfl, rfl⟩

/-- A well-formed transaction keeps of MEM what stores keep and what its loads, if it makes one, keep. -/
theorem exec_mem {P : Memory → Prop} {i : Instr} {s u : State} (hP : KeptByStores P)
    (hload : ∀ cart m, Loads i s → cartAnswer s = .next cart → P m → P (Memory.load m cart))
    (hi : wellFormed i = true) (h : exec i s = .next u) (hs : P s.mem) : P u.mem := by
  revert hload hi h
  refine instr_cases (P := fun i => (∀ cart m, Loads i s → cartAnswer s = .next cart → P m → P (Memory.load m cart)) →
    wellFormed i = true → exec i s = .next u → P u.mem) i
    ?rd ?wr ?mem ?rom ?serial ?echoA ?echoB ?plain ?get ?set ?load
  case rd =>
    intro id _ _ h
    rw [exec_busRdRow, andThen_eq_next] at h
    obtain ⟨⟨v, t⟩, ht, h⟩ := h
    cases h
    exact (cRead_keeps ht).1 ▸ hs
  case wr =>
    intro id v hload _ h
    rw [exec_busWrRow, andThen_eq_next] at h
    obtain ⟨t, ht, h⟩ := h
    cases h
    by_cases hid : id = .BOOT_ROM_DISABLE
    · subst hid
      obtain ⟨-, rfl⟩ | ⟨htr, cart, hcart, hmem⟩ := cWriteBootRomDisable_eq_next ht
      · exact hs
      · obtain ⟨rfl, hclear⟩ := latchTransition_eq_true.mp htr
        exact hmem ▸ hload cart _ (.inr ⟨rfl, hclear⟩) hcart (hP.regWrite _ _ _ hs)
    · exact (cWrite_mem hP.regWrite hid ht hs :)
  case load =>
    intro hload _ h
    obtain ⟨t, ht, h⟩ := andThen_eq_next.mp h
    cases h
    obtain ⟨cart, hcart, rfl⟩ := loadCartridge_eq_next.mp ht
    exact hload cart _ (.inl rfl) hcart hs
  case serial =>
    intro v _ _ h
    cases (execBusWrSerial_eq v s).symm.trans h
    exact hP.plain v (plain_of_high (by decide)) hs
  case echoA =>
    intro a v _ hi h
    cases h
    exact (hP.echo v (inRegion_of_beq hi) hs).1
  case echoB =>
    intro a v _ hi h
    cases h
    have hpair := (hP.echo v (inEchoA_sub (inRegion_of_beq hi)) hs).2
    rwa [BitVec.sub_add_cancel] at hpair
  case plain =>
    intro a v _ hi h
    cases h
    exact hP.plain v (region_eq_plain.mp (eq_of_beq (Bool.and_eq_true_iff.mp hi).1)).2 hs
  case set =>
    intro id v _ _ h
    cases h
    exact hP.regWrite id v _ hs
  case rom => intro a v _ _ h; cases h; exact hs
  case mem => intro a _ _ h; cases h; exact hs
  case get => intro id _ _ h; cases h; exact hs

end Sys2Proof.Machine
end

section
/-! The invariant of 20_memory.md R43: it holds at reset, and every step keeps it. -/

namespace Sys2Proof.Machine

/-- The part of `Inv` that is about MEM: canonical form and equal echo ranges. -/
def MemInv (m : Memory) : Prop := Memory.wf m = true ∧ EchoOk m

/-- Two stores of one byte, read back (R37, R38). -/
theorem Memory.read_write_write {m : Memory} (hm : Memory.wf m = true) (a b x : Addr) (v : Byte) :
    Memory.read (Memory.write (Memory.write m a v) b v) x = if x = a ∨ x = b then v else Memory.read m x := by
  rw [Memory.read_write (Memory.write_wf hm a v), Memory.read_write hm]
  by_cases hb : x = b <;> simp [hb]

/-- The pairs of R43 are disjoint: cells of the low range are not cells of the high one, and the offset is injective. -/
theorem echo_pair_iff {a c : Addr} (ha : inEchoA a = true) (hc : inEchoA c = true) :
    a + echoOffset ≠ c ∧ a ≠ c + echoOffset ∧ (a + echoOffset = c + echoOffset ↔ a = c) := by
  have apart {x y : Addr} (hx : inEchoA x = true) (hy : inEchoA y = true) : x + echoOffset ≠ y := by
    rintro rfl
    exact Bool.false_ne_true ((not_inEchoB_of_inEchoA hy).symm.trans (inEchoB_add hx))
  exact ⟨apart ha hc, (apart hc ha).symm, BitVec.add_left_inj _⟩

theorem memInv_keptByStores : KeptByStores MemInv where
  plain := by
    rintro x v m ⟨-, hA, hB⟩ ⟨hm, hecho⟩
    refine ⟨Memory.write_wf hm x v, fun a ha => ?_⟩
    have hlow : a ≠ x := by rintro rfl; exact Bool.false_ne_true (hA.symm.trans ha)
    have hhigh : a + echoOffset ≠ x := by rintro rfl; exact Bool.false_ne_true (hB.symm.trans (inEchoB_add ha))
    rw [Memory.read_write_other hlow, Memory.read_write_other hhigh, hecho a ha]
  echo := by
    rintro c v m hc ⟨hm, hecho⟩
    have both (x y : Addr) : Memory.wf (Memory.write (Memory.write m x v) y v) = true :=
      Memory.write_wf (Memory.write_wf hm x v) y v
    refine ⟨⟨both _ _, fun a ha => ?_⟩, both _ _, fun a ha => ?_⟩ <;>
    · obtain ⟨hac, hca, hinj⟩ := echo_pair_iff ha hc
      simp only [Memory.read_write_write hm, hac, hca, hinj, hecho a ha, or_false, false_or]

/-- A load stays below 0x8000, away from the echo ranges (R95). -/
theorem MemInv.load {m : Memory} (h : MemInv m) (cart : CartAnswer) : MemInv (Memory.load m cart) := by
  obtain ⟨hm, hecho⟩ := h
  refine ⟨Memory.load_wf hm cart, fun a ha => ?_⟩
  have hlow := inEchoA_iff.mp ha
  have hhigh := inEchoB_iff.mp (inEchoB_add ha)
  rw [Memory.read_load_high cart (by omega), Memory.read_load_high cart (by omega), hecho a ha]

/-- A well-formed transaction keeps the invariant. -/
theorem exec_inv {i : Instr} {s u : State} (hi : wellFormed i = true) (h : exec i s = .next u) (hs : Inv s) :
    Inv u := by
  obtain ⟨hwf, hecho, hticks⟩ := hs
  obtain ⟨hwf', hecho'⟩ := exec_mem memInv_keptByStores (fun cart _ _ _ hm => hm.load cart) hi h ⟨hwf, hecho⟩
  exact ⟨hwf', hecho', (exec_keeps h).1 ▸ hticks⟩

/-- Settles O13: a step that does anything runs a decoded, hence well-formed, transaction. -/
theorem everyStepKeepsTheInvariant : Obligations.EveryStepKeepsTheInvariant := by
  intro s t hs h
  obtain ⟨-, rfl⟩ | ⟨w, i, u, -, hi, hu, rfl⟩ := step_eq_next.mp h
  · exact hs
  · obtain ⟨hwf, hecho, hticks⟩ := exec_inv (wellFormed_of_decode hi) hu hs
    exact ⟨hwf, hecho, hticks⟩

/-! ## Reset -/

/-- Reset leaves zeros from 0x8000 on: both images lie below (R6, R112). -/
theorem Memory.read_afterReset_high {boot : List Byte} (cart : CartAnswer) {a : Addr} (hboot : boot.length ≤ 0x8000)
    (ha : 0x8000 ≤ a.toNat) : Memory.read (Memory.afterReset boot cart) a = 0x00 := by
  calc Memory.read (Memory.afterReset boot cart) a
      = Memory.read (Memory.load [] cart) a := Memory.cell_writeBytes_above (by omega)
    _ = 0x00 := Memory.read_load_high cart ha

theorem memInv_afterReset {boot : List Byte} (cart : CartAnswer) (hboot : boot.length ≤ 0x8000) :
    MemInv (Memory.afterReset boot cart) := by
  refine ⟨Memory.writeBytes_wfFrom (Memory.load_wf rfl cart) (by omega), fun a ha => ?_⟩
  have hlow := inEchoA_iff.mp ha
  have hhigh := inEchoB_iff.mp (inEchoB_add ha)
  rw [Memory.read_afterReset_high cart hboot (by omega), Memory.read_afterReset_high cart hboot (by omega)]

theorem inv_resetWith {p : Config.Params} (cart : CartAnswer) (hp : p.valid) : Inv (State.resetWith p cart) := by
  obtain ⟨hticks, hboot⟩ := hp
  obtain ⟨hwf, hecho⟩ := memInv_afterReset cart hboot
  exact ⟨hwf, hecho, hticks⟩

/-- Settles O12: `State.reset` is the reset with M_CYCLE_TICKS a successor and the empty boot image. -/
theorem resetSatisfiesTheInvariant : Obligations.ResetSatisfiesTheInvariant :=
  ⟨inv_resetWith _ ⟨Nat.succ_pos _, Nat.zero_le _⟩, fun _ cart hp => inv_resetWith cart hp⟩

end Sys2Proof.Machine
end

section
/-! A ROM cell changes only by a cartridge load (20_memory.md R42). -/

namespace Sys2Proof.Machine

/-- In the canonical memory `m` the cell at `a` is as in `s`, or the transaction loads and the image has the cell's byte. -/
def RomCellFrom (i : Instr) (s : State) (a : Addr) (m : Memory) : Prop :=
  Memory.wf m = true ∧ (Memory.read m a = memRead a s ∨
    Loads i s ∧ ∃ bytes, cartAnswer s = .next (.image bytes) ∧ bytes[a.toNat]? = some (Memory.read m a))

section

variable {i : Instr} {s : State} {a : Addr} {m : Memory}

/-- A store outside ROM leaves a ROM cell alone. -/
theorem RomCellFrom.write {x : Addr} (v : Byte) (ha : inRom a = true) (hx : inRom x = false)
    (h : RomCellFrom i s a m) : RomCellFrom i s a (Memory.write m x v) := by
  obtain ⟨hm, hcell⟩ := h
  have hne : a ≠ x := by rintro rfl; exact Bool.false_ne_true (hx.symm.trans ha)
  exact ⟨Memory.write_wf hm x v, by rwa [Memory.read_write_other hne]⟩

theorem romCellFrom_keptByStores (ha : inRom a = true) : KeptByStores (RomCellFrom i s a) where
  plain v _ hx hm := hm.write v ha hx.1
  echo v _ hc hm := by
    have hlow := not_inRom_of_inEchoA hc
    have hhigh := not_inRom_of_inEchoB (inEchoB_add hc)
    exact ⟨(hm.write v ha hlow).write v ha hhigh, (hm.write v ha hhigh).write v ha hlow⟩

/-- A load gives a ROM cell the image's byte, or leaves it where the image is too short or the load fails (R95, R96). -/
theorem RomCellFrom.load {cart : CartAnswer} (ha : inRom a = true) (hi : Loads i s)
    (hcart : cartAnswer s = .next cart) (h : RomCellFrom i s a m) : RomCellFrom i s a (Memory.load m cart) := by
  obtain ⟨hm, hcell⟩ := h
  refine ⟨Memory.load_wf hm cart, ?_⟩
  rw [Memory.read_load hm]
  cases cart with
  | failure => exact hcell
  | image bytes =>
    have hlt : a.toNat < 0x8000 := Nat.lt_succ_of_le (inRom_iff.mp ha)
    rw [loadedCell, if_pos hlt]
    cases hb : bytes[a.toNat]? with
    | none => exact hcell
    | some b => exact .inr ⟨hi, bytes, hcart, hb⟩

end

/-- Settles O14: of the transaction's stores and loads only a load reaches a ROM cell, so a changed one is the image's. -/
theorem romChangesOnlyByACartridgeLoad : Obligations.RomChangesOnlyByACartridgeLoad := by
  intro s t a hs h ha hchanged
  obtain ⟨-, rfl⟩ | ⟨w, i, u, hw, hi, hu, rfl⟩ := step_eq_next.mp h
  · exact absurd rfl hchanged
  · have hrom := inRom_iff.mpr ha
    have hcell : RomCellFrom i s a u.mem :=
      exec_mem (romCellFrom_keptByStores hrom) (fun _ _ hl hcart hm => hm.load hrom hl hcart)
        (wellFormed_of_decode hi) hu ⟨hs.wf, .inl rfl⟩
    obtain ⟨-, hsame | ⟨hloads, himage⟩⟩ := hcell
    · exact absurd hsame hchanged
    · refine ⟨⟨w, hw, ?_⟩, himage⟩
      obtain rfl | ⟨rfl, hclear⟩ := hloads
      · exact .inl hi
      · exact .inr ⟨hi, hclear⟩

end Sys2Proof.Machine
end

section
/-! What a read leaves and answers (20_memory.md R37, R48, 40_register_storage.md R66), and the bulk write of R39. -/

namespace Sys2Proof.Machine

/-- Every register but JOYP reads its cell with the mask and does nothing else (R66). -/
theorem cRead_of_ne_joyp {id : RegId} (h : id ≠ .JOYP) (s : State) : cRead id s = .next (regRead id s, s) := if_neg h

theorem isRead_busWrRow (id : RegId) (v : Byte) : isRead (busWrRow id v) = false := by cases id <;> rfl

/-- The reads are the rows of the registers, `BUS_RD.MEM` and `REG_GET`. -/
theorem isRead_cases {i : Instr} (h : isRead i = true) :
    (∃ id, i = busRdRow id) ∨ (∃ a, i = .busRdMem a) ∨ ∃ id, i = .regGet id := by
  revert h
  refine instr_cases (P := fun i => isRead i = true → (∃ id, i = busRdRow id) ∨ (∃ a, i = .busRdMem a) ∨
    ∃ id, i = .regGet id) i ?rd ?wr ?mem ?rom ?serial ?echoA ?echoB ?plain ?get ?set ?load
  case rd => exact fun id _ => .inl ⟨id, rfl⟩
  case mem => exact fun a _ => .inr (.inl ⟨a, rfl⟩)
  case get => exact fun id _ => .inr (.inr ⟨id, rfl⟩)
  case wr =>
    intro id v h
    rw [isRead_busWrRow] at h
    cases h
  all_goals exact nofun

/-- Settles O17: only the controlled read of JOYP is more than `returnByte` on the state as it was. -/
theorem readsChangeNoStateOfTheBlock : Obligations.ReadsChangeNoStateOfTheBlock := by
  intro i s u hi h
  obtain ⟨id, rfl⟩ | ⟨a, rfl⟩ | ⟨id, rfl⟩ := isRead_cases hi
  · rw [exec_busRdRow, andThen_eq_next] at h
    obtain ⟨⟨v, t⟩, ht, h⟩ := h
    cases h
    obtain ⟨hmem, htranscript⟩ := cRead_keeps ht
    refine ⟨hmem, htranscript, fun hne => ?_⟩
    have hid : id ≠ .JOYP := by rintro rfl; exact hne rfl
    cases (cRead_of_ne_joyp hid s).symm.trans ht
    rfl
  · cases h; exact ⟨rfl, rfl, fun _ => rfl⟩
  · cases h; exact ⟨rfl, rfl, fun _ => rfl⟩

/-- A read that asks nothing answers its byte and leaves everything else as it was. -/
theorem after_returnByte (v : Byte) (s : State) :
    ∃ u, returnByte v s = .next u ∧ After s u 0 (some v) [] [] fun b => memRead b s :=
  ⟨_, rfl, fun _ => rfl, (List.append_nil _).symm, rfl, (List.append_nil _).symm, rfl, by simp, rfl, rfl, rfl⟩

/-- Settles O25: each of these reads is `returnByte` of the cell, or of the cell with the register's mask. -/
theorem busReadsReturnTheCellOrMaskedRegister : Obligations.BusReadsReturnTheCellOrMaskedRegister := by
  refine ⟨fun a s => after_returnByte (memRead a s) s, fun id s hid => ?_⟩
  rw [exec_busRdRow, cRead_of_ne_joyp hid, andThen_next, ← regRead_eq]
  exact after_returnByte (regRead id s) s

/-- Within the address space the bulk write leaves byte `i` at `start + i` and all else as it was (R39). -/
theorem after_memWriteBytes {s : State} {start : Nat} {bytes : List Byte} (hs : Memory.wf s.mem = true)
    (h : start + bytes.length ≤ 0x10000) :
    ∃ u, memWriteBytes start bytes s = .next u ∧
      After s u 0 s.readData [] [] fun a =>
        if start ≤ a.toNat then (bytes[a.toNat - start]?).getD (memRead a s) else memRead a s :=
  ⟨_, if_pos h, fun a => Memory.cell_writeBytes a.toNat hs h, (List.append_nil _).symm, rfl,
    (List.append_nil _).symm, rfl, by simp, rfl, rfl, rfl⟩

/-- Settles O47: past 0xFFFF the guard of `memWriteBytes` faults, within it `after_memWriteBytes` says what is left. -/
theorem bulkWritesStayInsideTheAddressSpace : Obligations.BulkWritesStayInsideTheAddressSpace :=
  fun _ _ _ hs => ⟨fun h => if_neg (Nat.not_le.mpr h), after_memWriteBytes hs.wf⟩

end Sys2Proof.Machine
end

section
/-! The words of 30_encoding.md: what decodes is told by the fields of R54, and encoding and decoding undo each other
(R54 to R61). -/

namespace Sys2Proof.Machine

/-! ## The rows of a bus address, and their words -/

/-- The serial port lies in the plain region, so an address of another region is another (D33). -/
theorem ne_serialAddr_of_region {a : Addr} {r : Region} (h : region a = r) (hr : r ≠ .plain) : a ≠ serialAddr := by
  rintro rfl
  exact hr (h.symm.trans (by decide))

theorem decodeWrite_of_region {a : Addr} {r : Region} (v : Byte) (h : region a = r) (hs : a ≠ serialAddr) :
    decodeWrite a v = writeRow a v r :=
  h ▸ decodeWrite_eq_writeRow v hs

theorem encode_decodeRead (a : Addr) : encode (decodeRead a) = wordRead a := by
  cases h : regAt a with
  | some id => rw [regAddr_of_regAt h, decodeRead_regAddr, encode_busRdRow]
  | none => rw [decodeRead_of_no_register (regAt_eq_none.mp h), encode]

theorem encode_decodeWrite (a : Addr) (v : Byte) : encode (decodeWrite a v) = wordWrite a v := by
  by_cases hs : a = serialAddr
  · rw [hs, decodeWrite_serial, encode]
  · rw [decodeWrite_eq_writeRow v hs]
    cases hr : region a with
    | reg id =>
      have ha : a = regAddr id := inRegion_of_beq (beq_iff_eq.mpr hr)
      rw [writeRow, encode_busWrRow, ha]
    | rom | echoA | echoB | plain => rfl

/-- Settles O2: the address check of a well-formed row fixes the region of its address, and with it the row decoded. -/
theorem decodeOfEncodeIsIdentity : Obligations.DecodeOfEncodeIsIdentity := by
  intro i hi
  have write {a : Addr} {r : Region} (v : Byte) (h : region a = r) (hs : a ≠ serialAddr) :
      decode (wordWrite a v) = .ok (writeRow a v r) := by
    rw [decode_wordWrite, decodeWrite_of_region v h hs]
  revert hi
  refine instr_cases (P := fun i => wellFormed i = true → decode (encode i) = .ok i)
    i ?rd ?wr ?mem ?rom ?serial ?echoA ?echoB ?plain ?get ?set ?load
  case rd =>
    intro id _
    rw [encode_busRdRow, decode_wordRead, decodeRead_regAddr]
  case wr =>
    intro id v _
    rw [encode_busWrRow, decode_wordWrite, decodeWrite_regAddr]
  case mem =>
    intro a hi
    have ha : ∀ id, a ≠ regAddr id := regAt_eq_none.mp (Option.isNone_iff_eq_none.mp hi)
    rw [encode, decode_wordRead, decodeRead_of_no_register ha]
  case rom =>
    intro a v hi
    have hr : region a = .rom := region_eq_rom (inRom_iff.mp hi)
    exact write v hr (ne_serialAddr_of_region hr nofun)
  case echoA =>
    intro a v hi
    exact write v (eq_of_beq hi) (ne_serialAddr_of_region (eq_of_beq hi) nofun)
  case echoB =>
    intro a v hi
    exact write v (eq_of_beq hi) (ne_serialAddr_of_region (eq_of_beq hi) nofun)
  case plain =>
    intro a v hi
    obtain ⟨hr, hs⟩ := Bool.and_eq_true_iff.mp hi
    exact write v (eq_of_beq hr) (bne_iff_ne.mp hs)
  case serial => exact fun v _ => decode_wordWrite serialAddr v
  case get => exact fun id _ => decode_wordGet id
  case set => exact fun id v _ => decode_wordSet id v
  case load => exact fun _ => by decide

/-! ## What decodes, by the fields of the word -/

/-- The fields under which a word spells a transaction, by format (R54, R56, R58). -/
inductive Spells (w : Word) : Instr → Prop
  | busRd (hop : fieldOp w = 1) (hrsv : fieldRsv w = 0) (hdata : fieldData w = 0) :
      Spells w (decodeRead (fieldAddr w))
  | busWr (hop : fieldOp w = 2) (hrsv : fieldRsv w = 0) :
      Spells w (decodeWrite (fieldAddr w) (fieldData w))
  | regGet (id : RegId) (hop : fieldOp w = 3) (hrsv : fieldRsv w = 0) (hrsv2 : fieldRsv2 w = 0)
      (hdata : fieldData w = 0) (hid : regOfCode (fieldId w) = some id) : Spells w (.regGet id)
  | regSet (id : RegId) (hop : fieldOp w = 4) (hrsv : fieldRsv w = 0) (hrsv2 : fieldRsv2 w = 0)
      (hid : regOfCode (fieldId w) = some id) : Spells w (.regSet id (fieldData w))
  | loadCart (hop : fieldOp w = 5) (hrsv : fieldRsv w = 0) (haddr : fieldAddr w = 0) (hdata : fieldData w = 0) :
      Spells w .loadCart

/-- Bits 23:8 with `RSV2` 0 are those of the register whose code is `ID` (R54, R57). -/
theorem fieldAddr_eq_midOfId {w : Word} {id : RegId} (hrsv2 : fieldRsv2 w = 0)
    (hid : regOfCode (fieldId w) = some id) : fieldAddr w = midOfId id := by
  have h := congrArg BitVec.toNat hrsv2
  rw [fieldRsv2_toNat] at h
  rw [midOfId, regCode_of_regOfCode hid]
  apply BitVec.eq_of_toNat_eq
  rw [BitVec.toNat_setWidth, fieldId_toNat, fieldAddr_toNat]
  simp only [BitVec.ofNat_eq_ofNat, BitVec.toNat_ofNat] at h
  omega

/-- The transaction that the fields of a word spell is encoded by that word. -/
theorem encode_of_spells {w : Word} {i : Instr} (h : Spells w i) : encode i = w := by
  have fields {op : BitVec 4} {mid : Addr} {data : Byte} (hop : fieldOp w = op) (hrsv : fieldRsv w = 0)
      (hmid : fieldAddr w = mid) (hdata : fieldData w = data) : wordOf op mid data = w := by
    rw [← hop, ← hmid, ← hdata, wordOf_fields hrsv]
  cases h with
  | busRd hop hrsv hdata => rw [encode_decodeRead]; exact fields hop hrsv rfl hdata
  | busWr hop hrsv => rw [encode_decodeWrite]; exact fields hop hrsv rfl rfl
  | regGet id hop hrsv hrsv2 hdata hid => exact fields hop hrsv (fieldAddr_eq_midOfId hrsv2 hid) hdata
  | regSet id hop hrsv hrsv2 hid => exact fields hop hrsv (fieldAddr_eq_midOfId hrsv2 hid) rfl
  | loadCart hop hrsv haddr hdata => exact fields hop hrsv haddr hdata

theorem wellFormed_of_spells {w : Word} {i : Instr} (h : Spells w i) : wellFormed i = true := by
  cases h with
  | busRd => exact wellFormed_decodeRead _
  | busWr => exact wellFormed_decodeWrite _ _
  | regGet | regSet | loadCart => rfl

theorem decode_of_spells {w : Word} {i : Instr} (h : Spells w i) : decode w = .ok i := by
  rw [← encode_of_spells h]
  exact decodeOfEncodeIsIdentity i (wellFormed_of_spells h)

/-- `OP` lies in 1..5 and is none of 1..4 in the last branch of the decoder. -/
theorem op_eq_five {op : BitVec 4} (h : 1 ≤ op.toNat ∧ op.toNat ≤ 5) (h1 : op ≠ 1) (h2 : op ≠ 2) (h3 : op ≠ 3)
    (h4 : op ≠ 4) : op = 5 := by
  revert op
  decide

/-- The decoder answers the transaction that the fields of the word spell. -/
theorem decode_eq_ok_iff {w : Word} {i : Instr} : decode w = .ok i ↔ Spells w i := by
  refine ⟨fun h => ?fields, decode_of_spells⟩
  have hop : 1 ≤ (fieldOp w).toNat ∧ (fieldOp w).toNat ≤ 5 := by
    by_contra hop
    rw [decode, if_pos hop] at h
    cases h
  obtain ⟨hrsv, -⟩ := decode_eq_ok h
  rw [decode, if_neg (not_not.mpr hop), if_neg (not_not.mpr hrsv)] at h
  split_ifs at h with h1 hdata h2 h3 hrsv2 hdata h4 hrsv2 hbits
  · cases h
    exact .busRd h1 hrsv (not_not.mp hdata)
  · cases h
    exact .busWr h2 hrsv
  · cases hid : regOfCode (fieldId w) with (rw [hid] at h; cases h)
    | some id => exact .regGet id h3 hrsv (not_not.mp hrsv2) (not_not.mp hdata) hid
  · cases hid : regOfCode (fieldId w) with (rw [hid] at h; cases h)
    | some id => exact .regSet id h4 hrsv (not_not.mp hrsv2) hid
  · cases h
    obtain ⟨haddr, hdata⟩ := not_or.mp hbits
    exact .loadCart (op_eq_five hop h1 h2 h3 h4) hrsv (not_not.mp haddr) (not_not.mp hdata)

/-- Settles O3: a word that decodes is rebuilt from the fields that spell its transaction. -/
theorem encodeOfDecodeIsIdentity : Obligations.EncodeOfDecodeIsIdentity :=
  fun _ _ h => ⟨wellFormed_of_decode h, encode_of_spells (decode_eq_ok_iff.mp h)⟩

/-! ## The words that spell no transaction (R58) -/

theorem exists_error_iff {w : Word} : (∃ why, decode w = .error why) ↔ ¬ ∃ i, Spells w i := by
  simp only [← decode_eq_ok_iff]
  cases decode w <;> simp

theorem exists_spells_iff {w : Word} :
    (∃ i, Spells w i) ↔ fieldRsv w = 0 ∧
      ((fieldOp w = 1 ∧ fieldData w = 0) ∨ fieldOp w = 2 ∨
        (fieldOp w = 3 ∧ fieldRsv2 w = 0 ∧ (fieldId w).toNat < 19 ∧ fieldData w = 0) ∨
        (fieldOp w = 4 ∧ fieldRsv2 w = 0 ∧ (fieldId w).toNat < 19) ∨
        (fieldOp w = 5 ∧ fieldAddr w = 0 ∧ fieldData w = 0)) := by
  have code : (fieldId w).toNat < 19 ↔ ∃ id, regOfCode (fieldId w) = some id := by
    rw [← Option.ne_none_iff_exists', ne_eq, regOfCode_eq_none, not_le]
  rw [code]
  constructor
  · rintro ⟨i, h⟩
    cases h <;> simp [*]
  · rintro ⟨hrsv, ⟨hop, hdata⟩ | hop | ⟨hop, hrsv2, ⟨id, hid⟩, hdata⟩ | ⟨hop, hrsv2, id, hid⟩ | ⟨hop, haddr, hdata⟩⟩
    · exact ⟨_, .busRd hop hrsv hdata⟩
    · exact ⟨_, .busWr hop hrsv⟩
    · exact ⟨_, .regGet id hop hrsv hrsv2 hdata hid⟩
    · exact ⟨_, .regSet id hop hrsv hrsv2 hid⟩
    · exact ⟨_, .loadCart hop hrsv haddr hdata⟩

/-- Bits 23:0 are `ADDR` and `DATA` (R54). -/
theorem low_bits_eq_zero {w : Word} : fieldAddr w = 0 ∧ fieldData w = 0 ↔ w.toNat % 2 ^ 24 = 0 := by
  simp only [← BitVec.toNat_inj, fieldAddr_toNat, fieldData_toNat, BitVec.ofNat_eq_ofNat, BitVec.toNat_ofNat]
  omega

/-- Settles O4: the rule denies `exists_spells_iff`, format by format. -/
theorem illegalWordsAreThoseOfTheRule : Obligations.IllegalWordsAreThoseOfTheRule := by
  intro w
  rw [exists_error_iff, exists_spells_iff, low_bits_eq_zero]
  simp only [← BitVec.toNat_inj, fieldOp_toNat, fieldRsv_toNat, fieldRsv2_toNat, fieldId_toNat, fieldData_toNat,
    BitVec.ofNat_eq_ofNat, BitVec.toNat_ofNat]
  generalize w.toNat / 2 ^ 28 = op
  obtain rfl | rfl | rfl | rfl | rfl | rfl | hop :
      op = 0 ∨ op = 1 ∨ op = 2 ∨ op = 3 ∨ op = 4 ∨ op = 5 ∨ 6 ≤ op := by omega
  all_goals grind

/-! ## The assembler's words (R59) -/

/-- The fields of a word do not overlap, so a word is the `|||` of its fields, each shifted to its place (R54). -/
theorem wordOf_eq_or (op : BitVec 4) (mid : Addr) (data : Byte) :
    wordOf op mid data = op.setWidth 32 <<< 28 ||| mid.setWidth 32 <<< 8 ||| data.setWidth 32 := by
  rw [Laws.TableRow.wordOf_eq_append]
  ext k hk
  grind

theorem assemble_rd (a : Addr) : assemble (.rd a) = wordRead a := by
  rw [wordRead, wordOf_eq_or]
  exact BitVec.or_zero.symm

theorem assemble_wr (a : Addr) (v : Byte) : assemble (.wr a v) = wordWrite a v := by
  rw [wordWrite, wordOf_eq_or]
  rfl

theorem setWidth_midOfId (id : RegId) : (midOfId id).setWidth 32 = (regCode id).setWidth 32 := by
  cases id <;> rfl

theorem assemble_get (id : RegId) : assemble (.get id) = wordGet id := by
  rw [wordGet, wordOf_eq_or, setWidth_midOfId]
  exact BitVec.or_zero.symm

theorem assemble_set (id : RegId) (v : Byte) : assemble (.set id v) = wordSet id v := by
  rw [wordSet, wordOf_eq_or, setWidth_midOfId]
  rfl

/-- Settles O5: the assembler's words are those of the formats. -/
theorem assemblerWordsDecodeToTheirLines : Obligations.AssemblerWordsDecodeToTheirLines := by
  refine ⟨fun a => ?rd, fun a v => ?wr, fun id => ?get, fun id v => ?set, by decide⟩
  case rd => rw [assemble_rd, decode_wordRead]
  case wr => rw [assemble_wr, decode_wordWrite]
  case get => rw [assemble_get, decode_wordGet]
  case set => rw [assemble_set, decode_wordSet]

/-! ## A step without a transaction to run -/

theorem step_of_decode_error {s : State} {w : Word} {why : Illegal} (hw : nextWord s = some w)
    (h : decode w = .error why) : step s = .refused (.illegalEncoding why) := by
  simp only [step, hw, h]

theorem step_of_none {s : State} (hw : nextWord s = none) : step s = .next s := by
  simp only [step, hw]

/-- Settles O10: past the end of the program no word is pending. -/
theorem stepRefusesIllegalWordsAndIdlesWithoutOne : Obligations.StepRefusesIllegalWordsAndIdlesWithoutOne :=
  ⟨fun _ _ _ hw h => step_of_decode_error hw h, fun _ h => step_of_none (List.getElem?_eq_none h)⟩

/-! ## Sample words -/

/-- Settles O1: each word is a number, so the decoder is evaluated on it. -/
theorem sampleWordsDecodeAsSpecified : Obligations.SampleWordsDecodeAsSpecified := by
  unfold Obligations.SampleWordsDecodeAsSpecified
  decide

end Sys2Proof.Machine
end

section
/-! The storage of 40_register_storage.md: the forced bits that every read of a register shows (R64, R66, R69), and the
plain store of the whole byte (R65, R67, R92). -/

namespace Sys2Proof.Machine

/-! ## Bytes whose bits of a mask are all 1 -/

section
variable {b m : Byte}

/-- Setting bits keeps the bits of a mask 1. -/
theorem or_covers (h : b &&& m = m) (c : Byte) : (b ||| c) &&& m = m := by
  have absorb : m ||| (c &&& m) = m := by ext i hi; simp
  rw [BitVec.and_or_distrib_right, h, absorb]

/-- Clearing bits outside a mask keeps the bits of the mask 1. -/
theorem clear_covers {q : Byte} (h : b &&& m = m) (hq : q &&& m = 0) : (b &&& ~~~q) &&& m = m := by
  have outside : ~~~q &&& m = m :=
    calc ~~~q &&& m = (~~~q &&& m) ||| (q &&& m) := by rw [hq, BitVec.ofNat_eq_ofNat, BitVec.or_zero]
      _ = (~~~q ||| q) &&& m := BitVec.and_or_distrib_right.symm
      _ = m := by rw [BitVec.not_or_self, BitVec.allOnes_and]
  rw [BitVec.and_assoc, outside, h]

/-- The report of JOYP pulls down the report bits of pressed inputs only (R69). -/
theorem joypReport_covers {ps : List Pressed} (h : b &&& m = m) (hps : ∀ p ∈ ps, p.prs &&& m = 0) :
    joypReport b ps &&& m = m := by
  refine List.foldlRecOn (motive := fun r => r &&& m = m) ps _ (or_covers h 0x0F) fun r hr p hp => ?_
  split
  case isTrue => exact clear_covers hr (hps p hp)
  case isFalse => exact hr

end

/-! ## The reads of a register -/

/-- The plain read shows the forced bits as 1, whatever the cell holds (R64). -/
theorem regRead_covers (id : RegId) (s : State) : regRead id s &&& forceHigh id = forceHigh id := by
  rw [regRead_eq, BitVec.or_comm]
  exact or_covers BitVec.and_self _

/-- The report bit of an input within the contract is none of JOYP's forced bits (R69, D7). -/
theorem prs_and_forceHigh_of_inContract {p : Pressed} (h : inContract p = true) : p.prs &&& forceHigh .JOYP = 0 := by
  obtain ⟨-, h | h | h | h⟩ := inContract_iff.mp h <;> rw [h] <;> rfl

/-- The controlled read shows the forced bits as 1 too: JOYP's asks for inputs within the contract (R66, R69). -/
theorem cRead_covers {id : RegId} {s u : State} {v : Byte} (h : cRead id s = .next (v, u)) :
    v &&& forceHigh id = forceHigh id := by
  by_cases hid : id = .JOYP
  · subst hid
    rw [cRead, if_pos rfl, cReadJoyp, andThen_eq_next] at h
    obtain ⟨⟨ps, t⟩, hask, h⟩ := h
    obtain ⟨_, hps, heq⟩ := ask_eq_next.mp hask
    cases heq
    cases h
    exact joypReport_covers (regRead_covers .JOYP s) fun p hp =>
      prs_and_forceHigh_of_inContract (pressedAnswer_inContract hps p hp)
  · cases (cRead_of_ne_joyp hid s).symm.trans h
    exact regRead_covers id s

/-- Settles O18: the masks are the table's, and each port returns what `cRead` or `regRead` answers. -/
theorem registerReadsKeepForcedBitsHigh : Obligations.RegisterReadsKeepForcedBitsHigh := by
  refine ⟨fun id s => by cases id <;> rfl, fun id i s u hi h => ?_⟩
  obtain rfl | rfl := hi
  · rw [exec_busRdRow, andThen_eq_next] at h
    obtain ⟨⟨v, t⟩, hread, h⟩ := h
    cases h
    exact ⟨v, rfl, cRead_covers hread⟩
  · cases h
    exact ⟨regRead id s, rfl, regRead_covers id s⟩

/-! ## The plain store -/

/-- A plain write that ends a transaction stores the whole byte and leaves everything else as it was (R65, R56). -/
theorem after_returnNone_regWrite (id : RegId) (v : Byte) {s : State} (hs : Inv s) :
    ∃ u, returnNone (regWrite id v s) = .next u ∧
      After s u 0 none [] [] fun a => if a = regAddr id then v else memRead a s :=
  ⟨_, rfl, fun a => memRead_regWrite hs.wf id a v, (List.append_nil _).symm, rfl, (List.append_nil _).symm, rfl,
    by simp, rfl, rfl, rfl⟩

/-- The registers of R77 and R80 have the default controlled write (R67). -/
theorem cWrite_of_mem_defaultRegs {id : RegId} (h : id ∈ defaultRegs) (v : Byte) (s : State) :
    cWrite id v s = .next (regWrite id v s) := by
  revert h
  cases id
  case IE | SCY | SCX | LY | LYC | BGP | OBP0 | OBP1 => exact fun _ => rfl
  all_goals exact fun h => absurd h (by decide)

/-- Settles O39: the default controlled write is the plain write. -/
theorem defaultRegisterWritesStoreTheByte : Obligations.DefaultRegisterWritesStoreTheByte := by
  intro id v s hid hs
  rw [exec_busWrRow, cWrite_of_mem_defaultRegs hid, andThen_next]
  exact after_returnNone_regWrite id v hs

/-- Settles O44: REG_SET is the plain write of any register. -/
theorem regSetStoresTheByteAndNothingElse : Obligations.RegSetStoresTheByteAndNothingElse :=
  fun id v _ hs => after_returnNone_regWrite id v hs

end Sys2Proof.Machine
end

section
/-! A transaction followed part by part: how many answers it has used, what it has recorded, and what MEM has become
(10_state.md R8, 70_reset_and_hazards.md R116). -/

namespace Sys2Proof.Machine

/-- The state a transaction begun in `s` is in when it has used `n` answers, recorded `es` and made MEM `m`. -/
def reached (s : State) (n : Nat) (es : List Event) (m : Memory) : State :=
  { consumed n s with mem := m, events := s.events ++ es }

theorem consume_consumed (n : Nat) (s : State) : consume (consumed n s) = consumed (n + 1) s := by
  induction n generalizing s with
  | zero => rfl
  | succ n ih => exact ih (consume s)

section

variable {s : State} {n : Nat} {es : List Event} {m : Memory}

/-- A transaction begins with no answer used, nothing recorded and MEM as it is. -/
theorem reached_start (s : State) : reached s 0 [] s.mem = s := by
  rw [reached, List.append_nil]
  rfl

theorem record_consume_reached (e : Event) :
    record e (consume (reached s n es m)) = reached s (n + 1) (es ++ [e]) m := by
  rw [reached, reached, ← consume_consumed, ← List.append_assoc]
  rfl

theorem regWrite_reached (id : RegId) (v : Byte) :
    regWrite id v (reached s n es m) = reached s n es (Memory.regWrite m id v) := rfl

theorem runPortOps_reached (ops : List PortOp) :
    runPortOps ops (reached s n es m) =
      reached s n (es ++ portEvents ops m) (Memory.afterPortOps ops m) := by
  rw [reached, reached, ← List.append_assoc]
  rfl

/-- The timer window does not move inside a transaction (R9). -/
theorem inWindow_reached (t : Nat) : inWindow (reached s n es m) t = inWindow s t := by
  rw [reached, consumed_eq]
  rfl

/-- A query that is answered records itself and uses the answer (R106). -/
theorem ask_reached {α : Type} {q : Query} {answer : State → Result α} {a : α}
    (h : answer (reached s n es m) = .next a) :
    ask q answer (reached s n es m) = .next (a, reached s (n + 1) (es ++ [.asked q]) m) := by
  rw [ask_of_answer h, record_consume_reached]

/-- The same where the query is the first thing a transaction does. -/
theorem ask_start {α : Type} {q : Query} {answer : State → Result α} {a : α} (h : answer s = .next a) :
    ask q answer s = .next (a, reached s 1 [.asked q] s.mem) := by
  rw [← reached_start s] at h
  have hask := ask_reached (q := q) h
  rwa [reached_start] at hask

theorem askTicks_reached {t : Nat} (h : ticksAnswer (consumed n s) = .next t) :
    ask .getTicksSinceOverflow ticksAnswer (reached s n es m) =
      .next (t, reached s (n + 1) (es ++ [.asked .getTicksSinceOverflow]) m) :=
  ask_reached ((ticksAnswer_congr rfl rfl).trans h)

/-- Both queries of the tick-rate signal, in order (R75). -/
theorem sampleTickSignal_reached {e r : Bool} (he : enabledAnswer (consumed n s) = .next e)
    (hr : rateBitAnswer (consumed (n + 1) s) = .next r) :
    sampleTickSignal (reached s n es m) = .next (tickSignal e r,
      reached s (n + 2) (es ++ [.asked .isTimerEnabled] ++ [.asked .getTickRateBit]) m) := by
  rw [sampleTickSignal, ask_reached ((enabledAnswer_congr rfl rfl).trans he), andThen_next]
  dsimp only
  rw [ask_reached ((rateBitAnswer_congr rfl rfl).trans hr), andThen_next]

/-- A call records itself and takes the device's own accesses on MEM as it is at the call point (R8, R93). -/
theorem call_reached {c : DeviceCall} {ops : List PortOp} (h : callAnswer (consumed n s) = .next ops) :
    call c (reached s n es m) =
      .next (reached s (n + 1) (es ++ .called c :: portEvents ops m) (Memory.afterPortOps ops m)) := by
  have ha : callAnswer (reached s n es m) = .next ops := (callAnswer_congr rfl rfl).trans h
  rw [call_of_answer ha, record_consume_reached, runPortOps_reached, List.append_assoc, List.singleton_append]

theorem loadCartridge_reached {cart : CartAnswer} (h : cartAnswer (consumed n s) = .next cart) :
    loadCartridge (reached s n es m) =
      .next (reached s (n + 1) (es ++ [.asked .cartRead]) (Memory.load m cart)) := by
  rw [loadCartridge, ask_reached ((cartAnswer_congr rfl rfl).trans h)]
  rfl

/-- What a transaction leaves is what it has reached, and its read data. -/
theorem after_reached {cells : Addr → Byte} (rd : Option Byte) (hcells : ∀ a, Memory.read m a = cells a) :
    After s { reached s n es m with readData := rd } n rd [] es cells := by
  rw [reached, consumed_eq]
  exact ⟨hcells, (List.append_nil _).symm, rfl, rfl, rfl, rfl, rfl, rfl, rfl⟩

/-- A controlled write that ends a transaction leaves what it has reached, and no read data (R56, R87). -/
theorem after_write {f : State → Result State} {cells : Addr → Byte}
    (h : f (reached s 0 [] s.mem) = .next (reached s n es m)) (hcells : ∀ a, Memory.read m a = cells a) :
    ∃ u, andThen (f s) returnNone = .next u ∧ After s u n none [] es cells := by
  rw [reached_start] at h
  rw [h]
  exact ⟨_, rfl, after_reached none hcells⟩

end

end Sys2Proof.Machine
end

section
/-! The controlled accesses of 41_register_quirks.md: what each register's bus read or write leaves (R69 to R82). -/

namespace Sys2Proof.Machine

/-! ## Calls under a condition -/

theorem callIf_true (c : DeviceCall) (s : State) : callIf true c s = call c s := by rw [callIf_eq, if_pos rfl]

theorem callIf_false (c : DeviceCall) (s : State) : callIf false c s = .next s := by
  rw [callIf_eq, if_neg Bool.false_ne_true]

/-! ## The dividers -/

/-- The check comes first, so what the timer stores in either half is overwritten (R71, R72, D32). -/
theorem cWriteDivider_reached {s : State} {ops : List PortOp} (hops : callAnswer s = .next ops) :
    cWriteDivider (reached s 0 [] s.mem) =
      .next (reached s 1 (.called .checkTIMAUnexpectedIncrease :: portEvents ops s.mem)
        (Memory.regWrite (Memory.regWrite (Memory.afterPortOps ops s.mem) .DIV 0x00) .DIVLSB 0x00)) := by
  rw [cWriteDivider, call_reached (n := 0) hops]
  rfl

/-- Settles O33: the two zeroes are stored over what the called timer left. -/
theorem dividerWritesCheckThenZeroBothHalves : Obligations.DividerWritesCheckThenZeroBothHalves := by
  intro v s ops i hs hops hi
  have cell (a : Addr) :=
    Memory.read_write_write (Memory.afterPortOps_wf hs.wf ops) (regAddr .DIV) (regAddr .DIVLSB) a 0x00
  simp only [Memory.read_afterPortOps hs.wf] at cell
  obtain rfl | rfl := hi <;> exact after_write (f := cWriteDivider) (cWriteDivider_reached hops) cell

/-! ## The timer window -/

/-- A store followed by a call's own accesses, cell by cell. -/
theorem read_afterPortOps_regWrite {s : State} (hs : Inv s) (ops : List PortOp) (id : RegId) (v : Byte) (a : Addr) :
    Memory.read (Memory.afterPortOps ops (Memory.regWrite s.mem id v)) a =
      setBy ops a (if a = regAddr id then v else memRead a s) := by
  rw [Memory.read_afterPortOps (Memory.regWrite_wf hs.wf id v), Memory.read_regWrite hs.wf]
  rfl

theorem inWindow_reached_of_lt {s : State} {t n : Nat} {es : List Event} {m : Memory} (h : t < s.mCycleTicks) :
    inWindow (reached s n es m) t = true := by
  rw [inWindow_reached]
  exact decide_eq_true h

theorem inWindow_reached_of_le {s : State} {t n : Nat} {es : List Event} {m : Memory} (h : s.mCycleTicks ≤ t) :
    inWindow (reached s n es m) t = false := by
  rw [inWindow_reached]
  exact decide_eq_false (Nat.not_lt.mpr h)

/-- Settles O34: the store and the call are both under the window's condition, which holds. -/
theorem timaWriteIsKeptInsideTheWindow : Obligations.TimaWriteIsKeptInsideTheWindow := by
  intro v s t ops hs ht hwin hops
  refine after_write (f := cWriteTima v) ?_ (read_afterPortOps_regWrite hs ops .TIMA v)
  rw [cWriteTima, askTicks_reached (n := 0) ht, andThen_next]
  dsimp only
  rw [inWindow_reached_of_lt hwin, callIf_true, regWriteIf_eq, if_pos rfl, regWrite_reached, call_reached hops]
  rfl

/-- Settles O35: outside the window neither the store nor the call is made. -/
theorem timaWriteIsDroppedOutsideTheWindow : Obligations.TimaWriteIsDroppedOutsideTheWindow := by
  intro v s t ht hwin
  refine after_write (f := cWriteTima v) (m := s.mem) ?_ fun _ => rfl
  rw [cWriteTima, askTicks_reached (n := 0) ht, andThen_next]
  dsimp only
  rw [inWindow_reached_of_le hwin, callIf_false]
  rfl

/-- What a store that the timer's window follows leaves, inside the window and outside (R74, R76). -/
theorem after_store_then_window {s : State} {id : RegId} {v : Byte} {c : DeviceCall} {t : Nat} (hs : Inv s)
    (ht : ticksAnswer s = .next t) {f : State → Result State}
    (hf : ∀ s, f s = andThen (ask .getTicksSinceOverflow ticksAnswer (regWrite id v s)) fun (t, s) =>
      callIf (inWindow s t) c s) :
    (∀ ops, t < s.mCycleTicks → callAnswer (consumed 1 s) = .next ops →
      ∃ u, andThen (f s) returnNone = .next u ∧
        After s u 2 none []
          (.asked .getTicksSinceOverflow :: .called c :: portEvents ops (Memory.regWrite s.mem id v)) fun a =>
          setBy ops a (if a = regAddr id then v else memRead a s)) ∧
    (s.mCycleTicks ≤ t →
      ∃ u, andThen (f s) returnNone = .next u ∧
        After s u 1 none [] [.asked .getTicksSinceOverflow] fun a =>
          if a = regAddr id then v else memRead a s) := by
  have hask := askTicks_reached (n := 0) (es := []) (m := Memory.regWrite s.mem id v) ht
  constructor
  · intro ops hwin hops
    refine after_write ?_ (read_afterPortOps_regWrite hs ops id v)
    rw [hf, regWrite_reached, hask, andThen_next]
    dsimp only
    rw [inWindow_reached_of_lt hwin, callIf_true, call_reached hops]
    rfl
  · intro hwin
    refine after_write ?_ fun a => Memory.read_regWrite hs.wf id a v
    rw [hf, regWrite_reached, hask, andThen_next]
    dsimp only
    rw [inWindow_reached_of_le hwin, callIf_false]
    rfl

/-- Settles O36: a store that the window follows, with the call `setTIMA`. -/
theorem tmaWriteStoresAndForcesTheCounterInTheWindow : Obligations.TmaWriteStoresAndForcesTheCounterInTheWindow :=
  fun v _ _ hs ht => after_store_then_window (f := cWriteTma v) hs ht fun _ => rfl

/-- Settles O38: a store that the window follows, with the call `setIFOverride`. -/
theorem ifWriteStoresAndOverridesInTheWindow : Obligations.IfWriteStoresAndOverridesInTheWindow :=
  fun v _ _ hs ht => after_store_then_window (f := cWriteIf v) hs ht fun _ => rfl

/-! ## The tick-rate signal -/

theorem fallingEdge_tickSignal {e0 r0 e1 r1 : Bool} :
    fallingEdge (tickSignal e0 r0) (tickSignal e1 r1) = true ↔
      (e0 = true ∧ r0 = true) ∧ ¬ (e1 = true ∧ r1 = true) := by
  simp only [fallingEdge, tickSignal, Bool.and_eq_true, Bool.not_eq_true', ← Bool.not_eq_true]

/-- Settles O37: the four queries stand around the store, and the call depends on the falling edge alone. -/
theorem tacWriteChecksOnAFallingEdge : Obligations.TacWriteChecksOnAFallingEdge := by
  intro v s e0 r0 e1 r1 hs he0 hr0 he1 hr1 asks
  have samples : cWriteTac v (reached s 0 [] s.mem) =
      callIf (fallingEdge (tickSignal e0 r0) (tickSignal e1 r1)) .checkTIMAUnexpectedIncrease
        (reached s 4 asks (Memory.regWrite s.mem .TAC v)) := by
    rw [cWriteTac, sampleTickSignal_reached (n := 0) he0 hr0, andThen_next]
    dsimp only
    rw [regWrite_reached, sampleTickSignal_reached he1 hr1]
    rfl
  constructor
  · intro ops hedge hops
    refine after_write (f := cWriteTac v) ?_ (read_afterPortOps_regWrite hs ops .TAC v)
    rw [samples, fallingEdge_tickSignal.mpr hedge, callIf_true, call_reached hops]
  · intro hedge
    refine after_write (f := cWriteTac v) ?_ fun a => Memory.read_regWrite hs.wf .TAC a v
    rw [samples, Bool.eq_false_iff.mpr (mt fallingEdge_tickSignal.mp hedge), callIf_false]

/-! ## The display -/

/-- Bits 7 and 6 are the two that the display test looks at (R78). -/
theorem and_C0_eq_zero {b : Byte} : b &&& 0xC0 = 0 ↔ b.getLsbD 7 = false ∧ b.getLsbD 6 = false := by
  constructor
  · intro h
    have bit (k : Nat) := congrArg (BitVec.getLsbD · k) h
    exact ⟨by simpa using bit 7, by simpa using bit 6⟩
  · rintro ⟨h7, h6⟩
    have h7' : b[7] = false := by simpa using h7
    have h6' : b[6] = false := by simpa using h6
    apply BitVec.eq_of_getLsbD_eq
    intro k hk
    interval_cases k <;> simp [h7', h6']

theorem displayTurnedOff_iff {old v : Byte} :
    displayTurnedOff old v = true ↔
      (old.getLsbD 7 = true ∨ old.getLsbD 6 = true) ∧ v.getLsbD 7 = false ∧ v.getLsbD 6 = false := by
  rw [displayTurnedOff, Bool.and_eq_true, bne_iff_ne, beq_iff_eq, and_C0_eq_zero, ne_eq, and_C0_eq_zero,
    Classical.not_and_iff_not_or_not, Bool.not_eq_false, Bool.not_eq_false]

/-- A register without forced bits reads as its cell (R64). -/
theorem regRead_of_no_mask {id : RegId} (h : forceHigh id = 0) (s : State) : regRead id s = memRead (regAddr id) s := by
  rw [regRead_eq, h]
  exact BitVec.or_zero

/-- Settles O40: both calls depend on the display test, and the store comes after them. -/
theorem lcdcWriteResetsVideoWhenTurnedOff : Obligations.LcdcWriteResetsVideoWhenTurnedOff := by
  intro v s hs old
  have hoff : displayTurnedOff (regRead .LCDC (reached s 0 [] s.mem)) v = true ↔
      (old.getLsbD 7 = true ∨ old.getLsbD 6 = true) ∧ v.getLsbD 7 = false ∧ v.getLsbD 6 = false := by
    rw [reached_start, regRead_of_no_mask rfl, displayTurnedOff_iff]
  constructor
  · intro ops ops' hturn hops hops'
    refine after_write (f := cWriteLcdc v)
      (m := Memory.regWrite (Memory.afterPortOps ops' (Memory.afterPortOps ops s.mem)) .LCDC v) ?_ fun a => ?_
    · dsimp only [cWriteLcdc]
      rw [hoff.mpr hturn, callIf_true, call_reached (n := 0) hops, andThen_next, callIf_true,
        call_reached hops']
      rfl
    · have hwf := Memory.afterPortOps_wf hs.wf ops
      rw [Memory.read_regWrite (Memory.afterPortOps_wf hwf ops'), Memory.read_afterPortOps hwf,
        Memory.read_afterPortOps hs.wf]
      rfl
  · intro hturn
    refine after_write (f := cWriteLcdc v) ?_ fun a => Memory.read_regWrite hs.wf .LCDC a v
    dsimp only [cWriteLcdc]
    rw [Bool.eq_false_iff.mpr (mt hoff.mp hturn), callIf_false, andThen_next, callIf_false]
    rfl

/-! ## Merged bytes -/

/-- A store of a byte made from the old cell leaves that byte in the cell and everything else as it was. -/
theorem after_regWrite_of_old {s : State} {id : RegId} {w : Byte} (f : Byte → Byte) (hs : Inv s)
    (hw : w = f (memRead (regAddr id) s)) :
    ∃ u, returnNone (regWrite id w s) = .next u ∧
      After s u 0 none [] [] fun a => if a = regAddr id then f (memRead a s) else memRead a s := by
  have hcell : (fun a => if a = regAddr id then w else memRead a s) =
      fun a => if a = regAddr id then f (memRead a s) else memRead a s := by
    funext a
    split
    · next ha => rw [hw, ha]
    · rfl
  exact hcell ▸ after_returnNone_regWrite id w hs

/-- Settles O32: the merge keeps the plain read outside the select bits. -/
theorem joypWriteChangesOnlyTheSelectBits : Obligations.JoypWriteChangesOnlyTheSelectBits :=
  fun v _ hs => after_regWrite_of_old (fun old => ((old ||| 0xC0) &&& 0xCF) ||| (v &&& 0x30)) hs rfl

/-- The byte a bus write of STAT stores, by the bits of the old cell and the written byte (R79, D24). -/
theorem mergeBits_stat (old v : Byte) :
    mergeBits statConfigMask (old ||| 0x80) v = 0x80 ||| (v &&& 0x78) ||| (old &&& 0x07) := by
  apply BitVec.eq_of_getLsbD_eq
  intro k hk
  interval_cases k <;> simp [mergeBits, statConfigMask]

/-- Settles O41: the merge keeps the plain read outside bits 6:3. -/
theorem statWriteChangesOnlyTheConfigurableBits : Obligations.StatWriteChangesOnlyTheConfigurableBits :=
  fun v s hs => after_regWrite_of_old (fun old => 0x80 ||| (v &&& 0x78) ||| (old &&& 0x07)) hs
    (mergeBits_stat (memRead (regAddr .STAT) s) v)

/-! ## The DMA trigger -/

theorem dmaSource_eq (v : Byte) : dmaSource v = BitVec.ofNat 16 (v.toNat * 256) := by
  apply BitVec.eq_of_toNat_eq
  simp [dmaSource, Nat.shiftLeft_eq]

/-- Settles O42: an accepted value is stored before the call, a rejected one ends the write. -/
theorem dmaWriteStartsATransferUpToF1 : Obligations.DmaWriteStartsATransferUpToF1 := by
  intro v s hs
  constructor
  · intro ops hv hops
    refine after_write (f := cWriteDma v) ?_ (read_afterPortOps_regWrite hs ops .DMA v)
    have hacc : dmaAccepted v = true := decide_eq_true hv
    rw [cWriteDma, if_pos hacc, regWrite_reached, call_reached (n := 0) hops, dmaSource_eq]
    rfl
  · intro hv
    have hrej : ¬ dmaAccepted v = true := by
      rw [dmaAccepted, decide_eq_true_eq]
      omega
    exact after_write (f := cWriteDma v) (if_neg hrej) fun _ => rfl

/-! ## The boot latch -/

/-- The latch is set exactly when its cell holds 0x01 (R16, R33). -/
theorem latchSet_iff {s : State} : latchSet s = true ↔ memRead (regAddr .BOOT_ROM_DISABLE) s = 0x01 := by
  rw [latchSet, beq_iff_eq, regRead_of_no_mask rfl]

/-- A cell from 0x8000 on lies outside the cartridge window (R95, D13). -/
theorem loadedCell_of_high {a : Addr} (h : 0x8000 ≤ a.toNat) (cart : CartAnswer) (old : Byte) :
    loadedCell cart a old = old := by
  cases cart with
  | failure => rfl
  | image bytes => exact if_neg (Nat.not_lt.mpr h)

/-- A store of a register and then a load: the load does not reach the register (R95, D33). -/
theorem read_load_regWrite {s : State} (hs : Inv s) (cart : CartAnswer) (id : RegId) (v : Byte) (a : Addr) :
    Memory.read (Memory.load (Memory.regWrite s.mem id v) cart) a =
      if a = regAddr id then v else loadedCell cart a (memRead a s) := by
  rw [Memory.read_load (Memory.regWrite_wf hs.wf id v), Memory.read_regWrite hs.wf]
  split
  · next ha =>
    have hhigh := regAddr_high id
    exact loadedCell_of_high (by rw [ha]; omega) cart v
  · rfl

/-- Settles O43: the transition stores and loads; one of its conditions fails where the latch is set
or the value is another. -/
theorem bootLatchWriteReloadsOnce : Obligations.BootLatchWriteReloadsOnce := by
  intro v s hs
  have htr : latchTransition (reached s 0 [] s.mem) v = true ↔
      v = 0x01 ∧ memRead (regAddr .BOOT_ROM_DISABLE) s ≠ 0x01 := by
    rw [reached_start, latchTransition_eq_true, ← Bool.not_eq_true, latchSet_iff]
  constructor
  · intro cart hclear hv hcart
    refine after_write (f := cWriteBootRomDisable v) ?_ (read_load_regWrite hs cart .BOOT_ROM_DISABLE 0x01)
    rw [cWriteBootRomDisable, if_pos (htr.mpr ⟨hv, hclear⟩), regWrite_reached, loadCartridge_reached (n := 0) hcart]
    rfl
  · intro hno
    have hstay : ¬ latchTransition (reached s 0 [] s.mem) v = true := by
      rw [htr]
      tauto
    exact after_write (f := cWriteBootRomDisable v) (if_neg hstay) fun _ => rfl

/-! ## The default registers -/

/-- A plain read after a plain write: the byte with its mask, and every other register as before (R64, R65). -/
theorem regRead_regWrite {s : State} (hs : Inv s) (id r : RegId) (v : Byte) :
    regRead r (regWrite id v s) = if r = id then v ||| forceHigh id else regRead r s := by
  simp only [regRead_eq, memRead_regWrite hs.wf, regAddr_inj]
  split
  · next h => rw [h]
  · rfl

theorem forceHigh_of_mem_defaultRegs {id : RegId} (h : id ∈ defaultRegs) :
    forceHigh id = if id = .IE then 0xE0 else 0x00 := by
  revert h
  cases id <;> decide

/-- Settles O55: the two default accesses are the plain write and the plain read. -/
theorem defaultRegistersReadBackWhatIsWritten : Obligations.DefaultRegistersReadBackWhatIsWritten := by
  intro id v s hid hs
  have hjoyp : id ≠ .JOYP := by rintro rfl; exact absurd hid (by decide)
  have hread : regRead id (regWrite id v s) = if id = .IE then v ||| 0xE0 else v := by
    rw [regRead_regWrite hs, if_pos rfl, forceHigh_of_mem_defaultRegs hid]
    split
    · rfl
    · exact BitVec.or_zero
  refine ⟨{ regWrite id v s with readData := none },
    { regWrite id v s with readData := some (regRead id (regWrite id v s)) }, ?write, ?read, ?data, ?others,
    ?cells, rfl, rfl, rfl⟩
  case write =>
    rw [exec_busWrRow, cWrite_of_mem_defaultRegs hid]
    rfl
  case read =>
    rw [exec_busRdRow, cRead_of_ne_joyp hjoyp]
    rfl
  case data => exact congrArg some hread
  case others => exact fun r hr => (regRead_regWrite hs id r v).trans (if_neg hr)
  case cells => exact fun a ha => Memory.read_write_other (ha id)

/-! ## The report of JOYP -/

/-- A report bit is 1 where it starts as 1 and no pressed input of a selected group pulls it down (R69). -/
theorem joypReport_getLsbD {b : Byte} {ps : List Pressed} {k : Nat} (hk : k < 8) :
    (joypReport b ps).getLsbD k = true ↔
      (b ||| 0x0F).getLsbD k = true ∧ ∀ p ∈ ps, b &&& p.sel = 0 → p.prs.getLsbD k = false := by
  rw [joypReport]
  generalize b ||| 0x0F = r
  induction ps generalizing r with
  | nil => simp
  | cons p ps ih =>
    rw [List.foldl_cons, ih, List.forall_mem_cons]
    split
    · next hsel => simp [hsel, hk, and_assoc]
    · next hsel => exact and_congr_right fun _ => (and_iff_right fun h => absurd h hsel).symm

/-- The contract's press bits, bit by bit (R69, D7). -/
theorem prs_getLsbD_of_inContract {p : Pressed} (h : inContract p = true) {k : Nat} (hk : k < 8) :
    p.prs.getLsbD k = true ↔ k < 4 ∧ p.prs = BitVec.ofNat 8 (2 ^ k) := by
  obtain ⟨-, h | h | h | h⟩ := inContract_iff.mp h <;>
  · rw [h]
    revert k
    decide

/-- JOYP's forced bits select no group, so the plain read selects what the cell selects (R69, D7). -/
theorem selected_iff_of_inContract {p : Pressed} (h : inContract p = true) (old : Byte) :
    (old ||| 0xC0) &&& p.sel = 0 ↔ old &&& p.sel = 0 := by
  have hsel : 0xC0 &&& p.sel = 0 := by
    obtain ⟨h | h, -⟩ := inContract_iff.mp h <;> rw [h] <;> rfl
  rw [BitVec.and_or_distrib_right, hsel]
  exact iff_of_eq (congrArg (· = 0) BitVec.or_zero)

/-- The report of a cell leaves the bits above the report bits as the plain read has them (R69). -/
theorem joypReport_getLsbD_high {ps : List Pressed} (hps : ∀ p ∈ ps, inContract p = true) (old : Byte) {k : Nat}
    (hk : k < 8) (hk4 : 4 ≤ k) :
    (joypReport (old ||| 0xC0) ps).getLsbD k = (old ||| 0xC0 ||| 0x0F).getLsbD k := by
  rw [Bool.eq_iff_iff, joypReport_getLsbD hk, and_iff_left]
  intro p hp _
  rw [← Bool.not_eq_true, prs_getLsbD_of_inContract (hps p hp) hk]
  omega

/-- A report bit of a cell is 0 exactly where a pressed input of a selected group has it (R69). -/
theorem joypReport_getLsbD_low {ps : List Pressed} (hps : ∀ p ∈ ps, inContract p = true) (old : Byte) {k : Nat}
    (hk : k < 4) :
    (joypReport (old ||| 0xC0) ps).getLsbD k = false ↔
      ∃ p ∈ ps, old &&& p.sel = 0 ∧ p.prs = BitVec.ofNat 8 (2 ^ k) := by
  have start : (old ||| 0xC0 ||| 0x0F).getLsbD k = true := by interval_cases k <;> simp
  rw [← Bool.not_eq_true, joypReport_getLsbD (by omega), and_iff_right start]
  push Not
  refine exists_congr fun p => and_congr_right fun hp => ?_
  rw [selected_iff_of_inContract (hps p hp), ne_eq, Bool.not_eq_false,
    prs_getLsbD_of_inContract (hps p hp) (by omega), and_iff_right hk]

/-- The bus read of JOYP asks for the pressed inputs and answers the report of its cell (R69, R83). -/
theorem exec_busRdJoyp_of_answer {s : State} {ps : List Pressed} (h : pressedAnswer s = .next ps) :
    exec .busRdJoyp s = .next { reached s 1 [.asked .getPressedInputs] s.mem with
      readData := some (joypReport (memRead (regAddr .JOYP) s ||| 0xC0) ps) } := by
  rw [exec, execBusRdJoyp, cReadJoyp, ask_start h]
  rfl

/-- Settles O26: the bits of the report, for pairs that the answer keeps within the contract. -/
theorem joypReadReportsPressedInputsOfSelectedGroups :
    Obligations.JoypReadReportsPressedInputsOfSelectedGroups := by
  intro s ps h
  have hps := pressedAnswer_inContract h
  have high {k : Nat} := joypReport_getLsbD_high hps (memRead (regAddr .JOYP) s) (k := k)
  refine ⟨_, _, exec_busRdJoyp_of_answer h, after_reached _ fun _ => rfl, ?forced, ?select,
    fun k hk => joypReport_getLsbD_low hps _ hk⟩
  case forced => constructor <;> (rw [high (by decide) (by decide)]; simp)
  case select => constructor <;> (rw [high (by decide) (by decide)]; simp)

/-- Settles O52: one pair outside the contract is enough for the answer to fault. -/
theorem inputPairsOutsideTheContractFault : Obligations.InputPairsOutsideTheContractFault := by
  intro s ps rest p hans hp hout
  have hall : ¬ ps.all inContract = true := fun h => hout (inContract_iff.mp (List.all_eq_true.mp h p hp))
  have hfault : pressedAnswer s = .fault .inputContract := by
    simp only [pressedAnswer, hans]
    exact if_neg hall
  rw [exec, execBusRdJoyp, cReadJoyp, ask, hfault]
  rfl

end Sys2Proof.Machine
end

section
/-! The bus operations of 42_mmu_bus.md: the rows run what the source orders (R83, R84), and what each write outside the
registers leaves (R85, R86, R88 to R90). -/

namespace Sys2Proof.Machine

/-! ## The rows and the source's operations -/

/-- Settles O7: `decodeWrite` and `writeByte` make the same tests in the same order, and each row does what its branch
does. -/
theorem busWriteRowsRunWriteByte : Obligations.BusWriteRowsRunWriteByte := by
  intro a v s
  rw [decodeWrite, busWriteByte]
  by_cases hrom : inRom a = true
  · rw [if_pos hrom, if_pos hrom]
    rfl
  · rw [if_neg hrom, if_neg hrom]
    by_cases hserial : a = serialAddr
    · rw [if_pos hserial, if_pos hserial, hserial]
      rfl
    · rw [if_neg hserial, if_neg hserial, busWriteFromDispatch]
      cases regAt a with
      | some id => exact exec_busWrRow id v s
      | none =>
        rw [busStore]
        cases inEchoA a <;> cases inEchoB a <;> rfl

/-- Settles O8: a bound address reads through `cRead`, any other reads its cell. -/
theorem busReadRowsRunReadByte : Obligations.BusReadRowsRunReadByte := by
  intro a s
  rw [decodeRead, busReadByte]
  cases regAt a with
  | some id => exact exec_busRdRow id s
  | none => rfl

/-! ## What a write outside the registers leaves -/

/-- A write that ends having changed MEM and the transcript alone leaves just that, and no read data (R56). -/
theorem after_returnNone_stores {s : State} {m : Memory} {tr tr' : List Byte} {cells : Addr → Byte}
    (htr : tr' = s.transcript ++ tr) (hcells : ∀ a, Memory.read m a = cells a) :
    ∃ u, returnNone { s with mem := m, transcript := tr' } = .next u ∧ After s u 0 none tr [] cells :=
  ⟨_, rfl, hcells, htr, rfl, (List.append_nil _).symm, rfl, by simp, rfl, rfl, rfl⟩

/-- A dropped write leaves no read data and does nothing else (R85). -/
theorem exec_busWrRom (a : Addr) (v : Byte) (s : State) :
    exec (.busWrRom a v) s = .next { s with readData := none } := rfl

/-- Settles O28: nothing is stored and nothing appended. -/
theorem romWritesAreDropped : Obligations.RomWritesAreDropped :=
  fun _ _ _ _ => after_returnNone_stores (List.append_nil _).symm fun _ => rfl

/-- Settles O57: the output is the only field `exec_busWrRom` names. -/
theorem romWritesChangeNoStateOfTheBlock : Obligations.RomWritesChangeNoStateOfTheBlock :=
  fun a v s _ => ⟨_, exec_busWrRom a v s, rfl, rfl, rfl, rfl⟩

/-- The serial port lies outside the echo ranges, so its store is not mirrored (D33). -/
theorem busStore_serialAddr (v : Byte) (s : State) : busStore serialAddr v s = memWrite serialAddr v s := rfl

/-- Settles O29: the byte is appended, and no register being bound at the port, the plain store follows. -/
theorem serialWritesAppendAndStore : Obligations.SerialWritesAppendAndStore := by
  intro v s hs
  rw [exec, execBusWrSerial_eq, busStore_serialAddr]
  exact after_returnNone_stores rfl fun b => Memory.read_write hs.wf serialAddr b v

/-- Settles O31: one store, read back. -/
theorem plainWritesStoreOneCell : Obligations.PlainWritesStoreOneCell :=
  fun a v _ hs _ => after_returnNone_stores (List.append_nil _).symm fun b => Memory.read_write hs.wf a b v

/-! ## The mirrored writes -/

/-- The partner of an address of the low echo range, by number (R89). -/
theorem toNat_add_echoOffset {a : Addr} (h : a.toNat ≤ 0xDDFF) : (a + echoOffset).toNat = a.toNat + 0x2000 := by
  rw [BitVec.toNat_add, show echoOffset.toNat = 0x2000 from rfl]
  omega

/-- The partner of an address of the high echo range, by number (R90). -/
theorem toNat_sub_echoOffset {a : Addr} (h : 0xE000 ≤ a.toNat) : (a - echoOffset).toNat = a.toNat - 0x2000 := by
  rw [BitVec.toNat_sub, show echoOffset.toNat = 0x2000 from rfl]
  omega

/-- One byte stored in two cells, and no read data left. -/
theorem after_mirrored_store {s : State} (hs : Inv s) (a b : Addr) (v : Byte) :
    ∃ u, returnNone (memWrite b v (memWrite a v s)) = .next u ∧
      After s u 0 none [] [] fun c => if c = a ∨ c = b then v else memRead c s :=
  after_returnNone_stores (s := s) (List.append_nil _).symm fun c => Memory.read_write_write hs.wf a b c v

/-- Settles O30: the second of the two stores is at the partner, found by number. -/
theorem echoWritesAreMirrored : Obligations.EchoWritesAreMirrored := by
  constructor
  · rintro a v s hs ⟨-, hhi⟩
    simp only [← toNat_add_echoOffset hhi, BitVec.toNat_inj]
    exact after_mirrored_store hs a (a + echoOffset) v
  · rintro a v s hs ⟨hlo, -⟩
    simp only [← toNat_sub_echoOffset hlo, BitVec.toNat_inj]
    exact after_mirrored_store hs a (a - echoOffset) v

/-- A mirrored write at either address of a pair stores the byte in both cells of the pair (R89, R90). -/
theorem after_echo_write {s : State} {a b : Addr} {v : Byte} {i : Instr} (hs : Inv s)
    (hb : a + echoOffset = b) (hi : i = .busWrEchoA a v ∨ i = .busWrEchoB b v) :
    ∃ u, exec i s = .next u ∧ After s u 0 none [] [] fun c => if c = a ∨ c = b then v else memRead c s := by
  subst hb
  obtain rfl | rfl := hi
  · exact after_mirrored_store hs a (a + echoOffset) v
  · rw [exec, execBusWrEchoB, BitVec.add_sub_cancel]
    simpa only [or_comm] using after_mirrored_store hs (a + echoOffset) a v

/-- Settles O56: a read at either address of the pair answers the cell that the write left. -/
theorem echoWritesAreReadAtBothAddresses : Obligations.EchoWritesAreReadAtBothAddresses := by
  rintro a b v s hs ⟨-, hhi⟩ hb i hi
  have hpair : a + echoOffset = b := BitVec.eq_of_toNat_eq ((toNat_add_echoOffset hhi).trans hb.symm)
  obtain ⟨u, hu, hafter⟩ := after_echo_write hs hpair hi
  obtain ⟨w, hw, hread⟩ := after_returnByte (memRead a u) u
  obtain ⟨w', hw', hread'⟩ := after_returnByte (memRead b u) u
  have hcella : memRead a u = v := (hafter.mem a).trans (if_pos (.inl rfl))
  have hcellb : memRead b u = v := (hafter.mem b).trans (if_pos (.inr rfl))
  refine ⟨u, w, w', hu, hw, hcella ▸ hread.readData, hw', hcellb ▸ hread'.readData, fun c hca hcb => ?_, ?_, ?_, ?_⟩
  · exact (hafter.mem c).trans (if_neg (not_or.mpr ⟨hca, hcb⟩))
  · simpa using hafter.transcript
  · simpa using hafter.events
  · exact hafter.answers

end Sys2Proof.Machine
end

section
/-! The device port of 43_mmu_device_port.md: what REG_GET answers (R91), and what REG_SET changes as the ports show it
(R92). -/

namespace Sys2Proof.Machine

/-- Settles O27: REG_GET is the plain read that asks nothing, and JOYP is no exception. -/
theorem regGetReturnsTheMaskedRegister : Obligations.RegGetReturnsTheMaskedRegister := by
  intro id s
  rw [exec, execRegGet, regRead_eq]
  exact after_returnByte (memRead (regAddr id) s ||| forceHigh id) s

/-- Settles O54: REG_SET is one plain write, so registers read by `regRead_regWrite` and no cell without a register
changes. -/
theorem regSetIsReadBackWithItsMask : Obligations.RegSetIsReadBackWithItsMask := by
  intro id v s hs
  refine ⟨{ regWrite id v s with readData := none }, rfl, ?registers, ?cells, rfl, rfl, rfl⟩
  case registers => exact fun r => regRead_regWrite hs id r v
  case cells => exact fun a ha => Memory.read_write_other (ha id)

end Sys2Proof.Machine
end

section
/-! The cartridge loader of 44_cartridge_boot.md: what LOAD_CART, the bus write that sets the boot latch, and reset leave
in MEM (R95 to R99). -/

namespace Sys2Proof.Machine

/-- LOAD_CART is the load and the end of a transaction that returns nothing (R97). -/
theorem after_loadCart {s : State} {cart : CartAnswer} (hs : Inv s) (hcart : cartAnswer s = .next cart) :
    ∃ u, exec .loadCart s = .next u ∧
      After s u 1 none [] [.asked .cartRead] fun a => loadedCell cart a (memRead a s) :=
  after_write (f := loadCartridge) (loadCartridge_reached (n := 0) hcart) (Memory.read_load hs.wf cart)

/-- Settles O45: the latch's cell lies outside the cartridge window, so no load moves the latch. -/
theorem loadCartPlacesTheImage : Obligations.LoadCartPlacesTheImage := by
  intro s cart hs hcart
  obtain ⟨u, hu, hafter⟩ := after_loadCart hs hcart
  have hlatch : memRead (regAddr .BOOT_ROM_DISABLE) u = memRead (regAddr .BOOT_ROM_DISABLE) s :=
    (hafter.mem _).trans (loadedCell_of_high (by decide) cart _)
  exact ⟨u, hu, hafter, latchSet_congr hlatch⟩

/-- MEM after reset, cell by cell: the boot image over the cartridge over zeros (R112, D12). -/
theorem Memory.read_afterReset {boot : List Byte} (cart : CartAnswer) (hboot : boot.length ≤ 0x8000) (a : Addr) :
    Memory.read (Memory.afterReset boot cart) a = (boot[a.toNat]?).getD (loadedCell cart a 0x00) := by
  have hload : Memory.read (Memory.load [] cart) a = loadedCell cart a 0x00 := Memory.read_load rfl cart a
  rw [← hload]
  exact Memory.cell_writeBytes a.toNat (Memory.load_wf rfl cart) (by omega)

/-- Settles O46: a failure leaves every cell as it found it, at each of the three places a load happens. -/
theorem failedLoadsAreSilentNoOps : Obligations.FailedLoadsAreSilentNoOps := by
  refine ⟨fun s hs hcart => ⟨after_loadCart hs hcart, fun hclear => ?latch⟩, fun p ⟨_, hboot⟩ a => ?reset⟩
  case latch =>
    rw [← Bool.not_eq_true, latchSet_iff] at hclear
    exact (bootLatchWriteReloadsOnce 0x01 s hs).1 .failure hclear rfl hcart
  case reset => exact Memory.read_afterReset .failure hboot a

/-- Settles O48: reset leaves the latch not set, so the write loads, and every boot-image address lies inside the
window and the image. -/
theorem settingTheLatchReplacesTheBootImage : Obligations.SettingTheLatchReplacesTheBootImage := by
  intro p first bytes hp hlen
  obtain ⟨hwf, hecho, hticks⟩ := inv_resetWith first hp
  obtain ⟨-, hboot⟩ := hp
  have hclear : Memory.read (Memory.afterReset p.bootImage first) (regAddr .BOOT_ROM_DISABLE) ≠ 0x01 := by
    rw [Memory.read_afterReset_high first hboot (by decide)]
    decide
  obtain ⟨u, hu, hafter⟩ := (bootLatchWriteReloadsOnce 0x01
    { State.resetWith p first with answers := [.cart (.image bytes)] } ⟨hwf, hecho, hticks⟩).1
    (.image bytes) hclear rfl rfl
  refine ⟨u, hu, latchSet_iff.mpr ((hafter.mem _).trans (if_pos rfl)), fun a ha => ?_⟩
  have himage : a.toNat < bytes.length := by omega
  rw [hafter.mem a, if_neg (ne_regAddr_of_low (by omega) _), loadedCell, if_pos (by omega),
    List.getElem?_eq_getElem himage, Option.getD_some]

end Sys2Proof.Machine
end

section
/-! Why a transaction stops (60_exceptions.md R100, R101): only because of a scripted answer outside its contract. -/

namespace Sys2Proof.Machine

/-- A part of a transaction run in `s` answers, or stops because of an answer scripted in `s`: with a fault that a
device's answer raises, or with the refusal of what a called device issues (R101). -/
inductive StopsOnlyByAnswer {α : Type} (s : State) : Result α → Prop
  | next (a : α) : StopsOnlyByAnswer s (.next a)
  | fault {e : Fault} (hs : s.answers ≠ []) (he : e = .inputContract ∨ e = .deviceContract) :
      StopsOnlyByAnswer s (.fault e)
  | refused (hs : s.answers ≠ []) : StopsOnlyByAnswer s (.refused .nestedTransaction)

section

variable {α β : Type} {s t : State}

/-- An answer still scripted later in a transaction was scripted at its beginning. -/
theorem Frame.answers_ne_nil (h : Frame s t) (ht : t.answers ≠ []) : s.answers ≠ [] := by
  obtain ⟨n, hn⟩ := h.answers
  intro hs
  exact ht (by rw [hn, hs, List.drop_nil])

/-- What a later part stops for was scripted at the beginning. -/
theorem StopsOnlyByAnswer.of_frame {r : Result α} (h : StopsOnlyByAnswer t r) (hst : Frame s t) :
    StopsOnlyByAnswer s r := by
  cases h with
  | next a => exact .next a
  | fault ht he => exact .fault (hst.answers_ne_nil ht) he
  | refused ht => exact .refused (hst.answers_ne_nil ht)

/-- Two parts in sequence, the second run in a state that the first leads to. -/
theorem StopsOnlyByAnswer.seq {r : Result α} {f : α → Result β} (hr : StopsOnlyByAnswer s r)
    (hf : ∀ a, r = .next a → ∃ t, Frame s t ∧ StopsOnlyByAnswer t (f a)) : StopsOnlyByAnswer s (andThen r f) := by
  cases hr with
  | next a =>
    obtain ⟨t, hst, ht⟩ := hf a rfl
    exact ht.of_frame hst
  | fault hs he => exact .fault hs he
  | refused hs => exact .refused hs

/-- A part followed by an end that always answers. -/
theorem StopsOnlyByAnswer.seq_next {r : Result α} {f : α → Result β} (hr : StopsOnlyByAnswer s r)
    (hf : ∀ a, ∃ b, f a = .next b) : StopsOnlyByAnswer s (andThen r f) := by
  refine hr.seq fun a _ => ⟨s, Frame.refl s, ?_⟩
  obtain ⟨b, hb⟩ := hf a
  rw [hb]
  exact .next b

end

/-! ## The answers -/

/-- A script that holds an answer is not empty. -/
theorem answers_ne_nil_of_cons {s : State} {x : Answer} {rest : List Answer} (h : s.answers = x :: rest) :
    s.answers ≠ [] := h ▸ List.cons_ne_nil x rest

/-- The fault of a scripted answer of another type (R106). -/
theorem StopsOnlyByAnswer.of_cons {α : Type} {s : State} {x : Answer} {rest : List Answer}
    (h : s.answers = x :: rest) : StopsOnlyByAnswer (α := α) s (.fault .deviceContract) :=
  .fault (answers_ne_nil_of_cons h) (.inr rfl)

theorem ticksAnswer_stops (s : State) : StopsOnlyByAnswer s (ticksAnswer s) := by
  rw [ticksAnswer]
  split
  · exact .next _
  · exact .next _
  · next h => exact .of_cons h

theorem enabledAnswer_stops (s : State) : StopsOnlyByAnswer s (enabledAnswer s) := by
  rw [enabledAnswer]
  split
  · exact .next _
  · exact .next _
  · next h => exact .of_cons h

theorem rateBitAnswer_stops (s : State) : StopsOnlyByAnswer s (rateBitAnswer s) := by
  rw [rateBitAnswer]
  split
  · exact .next _
  · exact .next _
  · next h => exact .of_cons h

theorem cartAnswer_stops (s : State) : StopsOnlyByAnswer s (cartAnswer s) := by
  rw [cartAnswer]
  split
  · exact .next _
  · exact .next _
  · next h => exact .of_cons h

theorem pressedAnswer_stops (s : State) : StopsOnlyByAnswer s (pressedAnswer s) := by
  rw [pressedAnswer]
  split
  · exact .next _
  · next h =>
    split
    · exact .next _
    · exact .fault (answers_ne_nil_of_cons h) (.inl rfl)
  · next h => exact .of_cons h

theorem callAnswer_stops (s : State) : StopsOnlyByAnswer s (callAnswer s) := by
  rw [callAnswer]
  split
  · exact .next _
  · next h =>
    split
    · exact .next _
    · exact .refused (answers_ne_nil_of_cons h)
  · next h => exact .of_cons h

/-! ## The shared operations -/

theorem ask_stops {α : Type} {q : Query} {answer : State → Result α} {s : State}
    (h : StopsOnlyByAnswer s (answer s)) : StopsOnlyByAnswer s (ask q answer s) :=
  h.seq_next fun _ => ⟨_, rfl⟩

theorem call_stops (c : DeviceCall) (s : State) : StopsOnlyByAnswer s (call c s) :=
  (callAnswer_stops s).seq_next fun _ => ⟨_, rfl⟩

theorem callIf_stops (b : Bool) (c : DeviceCall) (s : State) : StopsOnlyByAnswer s (callIf b c s) := by
  rw [callIf_eq]
  split
  · exact call_stops c s
  · exact .next s

theorem loadCartridge_stops (s : State) : StopsOnlyByAnswer s (loadCartridge s) :=
  (ask_stops (cartAnswer_stops s)).seq_next fun _ => ⟨_, rfl⟩

theorem sampleTickSignal_stops (s : State) : StopsOnlyByAnswer s (sampleTickSignal s) :=
  (ask_stops (enabledAnswer_stops s)).seq fun r hr => ⟨r.2, ask_frame hr,
    (ask_stops (rateBitAnswer_stops r.2)).seq_next fun _ => ⟨_, rfl⟩⟩

/-! ## The controlled accesses and the transactions -/

theorem cRead_stops (id : RegId) (s : State) : StopsOnlyByAnswer s (cRead id s) := by
  rw [cRead]
  split
  · exact (ask_stops (pressedAnswer_stops s)).seq_next fun _ => ⟨_, rfl⟩
  · exact .next _

/-- The end that TMA and IF share: the ticks are asked, and inside the window the timer is called (R74, R76). -/
theorem askTicks_callIf_stops (c : DeviceCall) (s : State) :
    StopsOnlyByAnswer s (andThen (ask .getTicksSinceOverflow ticksAnswer s) fun (t, s) => callIf (inWindow s t) c s) :=
  (ask_stops (ticksAnswer_stops s)).seq fun _ hr => ⟨_, ask_frame hr, callIf_stops _ _ _⟩

theorem cWrite_stops (id : RegId) (v : Byte) (s : State) : StopsOnlyByAnswer s (cWrite id v s) := by
  cases id
  case DIV | DIVLSB => exact (call_stops _ s).seq_next fun _ => ⟨_, rfl⟩
  case TIMA =>
    exact (ask_stops (ticksAnswer_stops s)).seq fun _ hr =>
      ⟨_, (ask_frame hr).trans (regWriteIf_frame _ .TIMA v _), callIf_stops _ _ _⟩
  case TMA => exact (askTicks_callIf_stops _ _).of_frame (regWrite_frame .TMA v s)
  case IF => exact (askTicks_callIf_stops _ _).of_frame (regWrite_frame .IF v s)
  case TAC =>
    exact (sampleTickSignal_stops s).seq fun _ hr =>
      ⟨_, (sampleTickSignal_eq_next hr).1.trans (regWrite_frame .TAC v _),
        (sampleTickSignal_stops _).seq fun _ hr' => ⟨_, (sampleTickSignal_eq_next hr').1, callIf_stops _ _ _⟩⟩
  case LCDC =>
    exact (callIf_stops _ _ s).seq fun _ hr => ⟨_, callIf_frame hr,
      (callIf_stops _ _ _).seq_next fun _ => ⟨_, rfl⟩⟩
  case DMA =>
    rw [cWrite, cWriteDma]
    split
    · exact (call_stops _ _).of_frame (regWrite_frame .DMA v s)
    · exact .next s
  case BOOT_ROM_DISABLE =>
    rw [cWrite, cWriteBootRomDisable]
    split
    · exact (loadCartridge_stops _).of_frame (regWrite_frame .BOOT_ROM_DISABLE 0x01 s)
    · exact .next s
  all_goals exact .next _

/-- Only the reads and writes of a register and the cartridge load can stop at all. -/
theorem exec_stops (i : Instr) (s : State) : StopsOnlyByAnswer s (exec i s) := by
  refine instr_cases (P := fun i => StopsOnlyByAnswer s (exec i s)) i
    ?rd ?wr ?mem ?rom ?serial ?echoA ?echoB ?plain ?get ?set ?load
  case rd => exact fun id => exec_busRdRow id s ▸ (cRead_stops id s).seq_next fun _ => ⟨_, rfl⟩
  case wr => exact fun id v => exec_busWrRow id v s ▸ (cWrite_stops id v s).seq_next fun _ => ⟨_, rfl⟩
  case load => exact (loadCartridge_stops s).seq_next fun _ => ⟨_, rfl⟩
  case serial =>
    intro v
    rw [exec, execBusWrSerial_eq]
    exact .next _
  all_goals
    intros
    exact .next _

/-- Settles O24: the stops are the two that `exec_stops` leaves. -/
theorem onlyDeviceAnswersStopATransaction : Obligations.OnlyDeviceAnswersStopATransaction := by
  intro i s
  have hstops := exec_stops i s
  constructor
  · intro e h
    rw [h] at hstops
    cases hstops with
    | fault hs he => exact ⟨hs, he⟩
  · intro e h
    rw [h] at hstops
    cases hstops with
    | refused hs => exact ⟨hs, rfl⟩

/-- Settles O23: O24 leaves no stop where the script is empty. -/
theorem unscriptedTransactionsAlwaysComplete : Obligations.UnscriptedTransactionsAlwaysComplete := by
  intro i s hs
  obtain ⟨hfault, hrefused⟩ := onlyDeviceAnswersStopATransaction i s
  cases h : exec i s with
  | next u => exact ⟨u, rfl⟩
  | fault e => exact absurd hs (hfault e h).1
  | refused e => exact absurd hs (hrefused e h).1

end Sys2Proof.Machine
end

section
/-! Where a transaction asks and calls, and the fault of an answer of another type there (60_exceptions.md R106, decision
D10). -/

namespace Sys2Proof.Machine

/-! ## Answers of another type -/

section

variable {s : State} {x : Answer} {rest : List Answer}

theorem ticksAnswer_of_wrong_type (h : s.answers = x :: rest) (hx : ∀ t, x ≠ .ticks t) :
    ticksAnswer s = .fault .deviceContract := by
  cases x
  case ticks t => exact absurd rfl (hx t)
  all_goals simp only [ticksAnswer, h]

theorem enabledAnswer_of_wrong_type (h : s.answers = x :: rest) (hx : ∀ b, x ≠ .enabled b) :
    enabledAnswer s = .fault .deviceContract := by
  cases x
  case enabled b => exact absurd rfl (hx b)
  all_goals simp only [enabledAnswer, h]

theorem rateBitAnswer_of_wrong_type (h : s.answers = x :: rest) (hx : ∀ b, x ≠ .rateBit b) :
    rateBitAnswer s = .fault .deviceContract := by
  cases x
  case rateBit b => exact absurd rfl (hx b)
  all_goals simp only [rateBitAnswer, h]

theorem pressedAnswer_of_wrong_type (h : s.answers = x :: rest) (hx : ∀ ps, x ≠ .inputs ps) :
    pressedAnswer s = .fault .deviceContract := by
  cases x
  case inputs ps => exact absurd rfl (hx ps)
  all_goals simp only [pressedAnswer, h]

theorem cartAnswer_of_wrong_type (h : s.answers = x :: rest) (hx : ∀ c, x ≠ .cart c) :
    cartAnswer s = .fault .deviceContract := by
  cases x
  case cart c => exact absurd rfl (hx c)
  all_goals simp only [cartAnswer, h]

theorem callAnswer_of_wrong_type (h : s.answers = x :: rest) (hx : ∀ txns, x ≠ .returns txns) :
    callAnswer s = .fault .deviceContract := by
  cases x
  case returns txns => exact absurd rfl (hx txns)
  all_goals simp only [callAnswer, h]

end

/-! ## Waiting for an answer -/

/-- What is left of a transaction begins with taking an answer off the script `rest`. -/
def Awaits {α β : Type} (answer : State → Result α) (rest : List Answer) (r : Result β) : Prop :=
  ∃ (u : State) (f : α → Result β), u.answers = rest ∧ r = andThen (answer u) f

section

variable {α β γ : Type} {answer : State → Result α} {rest : List Answer}

theorem Awaits.andThen {r : Result β} (h : Awaits answer rest r) (g : β → Result γ) :
    Awaits answer rest (andThen r g) := by
  obtain ⟨u, f, hu, rfl⟩ := h
  exact ⟨u, _, hu, andThen_assoc _ f g⟩

theorem awaits_ask (q : Query) {u : State} (hu : u.answers = rest) : Awaits answer rest (ask q answer u) :=
  ⟨u, _, hu, rfl⟩

theorem awaits_call (c : DeviceCall) {u : State} (hu : u.answers = rest) : Awaits callAnswer rest (call c u) :=
  ⟨u, _, hu, rfl⟩

theorem awaits_callIf {b : Bool} (c : DeviceCall) {u : State} (hb : b = true) (hu : u.answers = rest) :
    Awaits callAnswer rest (callIf b c u) := by
  rw [hb, callIf_true]
  exact awaits_call c hu

/-- A transaction stops where the answer it waits for does. -/
theorem Awaits.eq_fault {r : Result β} {e : Fault} (h : Awaits answer rest r)
    (hans : ∀ {u : State}, u.answers = rest → answer u = .fault e) : r = .fault e := by
  obtain ⟨u, f, hu, rfl⟩ := h
  rw [hans hu, andThen_fault]

end

/-! ## The first query or call of each transaction -/

section

variable {v : Byte} {s : State} {as : List Answer}

theorem busRdJoyp_awaits (h : s.answers = as) : Awaits pressedAnswer as (exec .busRdJoyp s) :=
  ((awaits_ask .getPressedInputs h).andThen _).andThen _

theorem busWrTima_awaits (h : s.answers = as) : Awaits ticksAnswer as (exec (.busWrTima v) s) :=
  ((awaits_ask .getTicksSinceOverflow h).andThen _).andThen _

theorem busWrTma_awaits (h : s.answers = as) : Awaits ticksAnswer as (exec (.busWrTma v) s) :=
  ((awaits_ask .getTicksSinceOverflow (u := regWrite .TMA v s) h).andThen _).andThen _

theorem busWrIf_awaits (h : s.answers = as) : Awaits ticksAnswer as (exec (.busWrIf v) s) :=
  ((awaits_ask .getTicksSinceOverflow (u := regWrite .IF v s) h).andThen _).andThen _

theorem sampleTickSignal_awaits (h : s.answers = as) : Awaits enabledAnswer as (sampleTickSignal s) :=
  (awaits_ask .isTimerEnabled h).andThen _

/-- The bus write of TAC waits where its first sample does (R75). -/
theorem busWrTac_awaits_of_sample {α : Type} {answer : State → Result α}
    (h : Awaits answer as (sampleTickSignal s)) : Awaits answer as (exec (.busWrTac v) s) :=
  (h.andThen _).andThen _

/-- The bus writes of both halves of the divider run this one write (R71, R72). -/
theorem cWriteDivider_awaits (h : s.answers = as) : Awaits callAnswer as (cWriteDivider s) :=
  (awaits_call .checkTIMAUnexpectedIncrease h).andThen _

theorem busWrDma_awaits (h : s.answers = as) (hv : v.toNat ≤ 0xF1) :
    Awaits callAnswer as (exec (.busWrDma v) s) := by
  have hacc : dmaAccepted v = true := decide_eq_true hv
  rw [exec, execBusWrDma, cWriteDma, if_pos hacc]
  exact (awaits_call _ (u := regWrite .DMA v s) h).andThen _

theorem busWrLcdc_awaits (h : s.answers = as) (hoff : displayTurnedOff (regRead .LCDC s) v = true) :
    Awaits callAnswer as (exec (.busWrLcdc v) s) :=
  ((awaits_callIf .videoReset hoff h).andThen _).andThen _

theorem loadCartridge_awaits (h : s.answers = as) : Awaits cartAnswer as (loadCartridge s) :=
  (awaits_ask .cartRead h).andThen _

theorem busWrBootRomDisable_awaits (h : s.answers = as) (htr : latchTransition s v = true) :
    Awaits cartAnswer as (exec (.busWrBootRomDisable v) s) := by
  rw [exec, execBusWrBootRomDisable, cWriteBootRomDisable, if_pos htr]
  exact (loadCartridge_awaits (s := regWrite .BOOT_ROM_DISABLE 0x01 s) h).andThen _

end

/-! ## The later queries and calls -/

section

variable {α β γ : Type} {answer : State → Result α} {as rest : List Answer} {s : State}

/-- Once a query is answered, the transaction waits where its rest does. -/
theorem awaits_after_ask {q : Query} {first : State → Result γ} {a : γ} {x : Answer} {f : γ × State → Result β}
    (h : s.answers = x :: rest) (ha : first s = .next a)
    (hf : ∀ u, u.answers = rest → u.mCycleTicks = s.mCycleTicks → Awaits answer as (f (a, u))) :
    Awaits answer as (andThen (ask q first s) f) := by
  rw [ask_of_answer ha, andThen_next]
  exact hf _ (by rw [record_answers, consume_answers, h, List.tail_cons]) rfl

/-- Once a call has returned, the transaction waits where its rest does. -/
theorem awaits_after_call {c : DeviceCall} {ops : List PortOp} {x : Answer} {f : State → Result β}
    (h : s.answers = x :: rest) (hops : callAnswer s = .next ops) (hf : ∀ u, u.answers = rest → Awaits answer as (f u)) :
    Awaits answer as (andThen (call c s) f) := by
  rw [call_of_answer hops, andThen_next]
  exact hf _ (by rw [runPortOps_answers, record_answers, consume_answers, h, List.tail_cons])

/-- Once both queries of the tick-rate signal are answered, the transaction waits where its rest does. -/
theorem awaits_after_sample {e r : Bool} {f : Bool × State → Result β}
    (h : s.answers = .enabled e :: .rateBit r :: rest)
    (hf : ∀ u, u.answers = rest → Awaits answer as (f (tickSignal e r, u))) :
    Awaits answer as (andThen (sampleTickSignal s) f) := by
  rw [sampleTickSignal, andThen_assoc]
  refine awaits_after_ask h (enabledAnswer_of_cons h) fun u hu _ => ?_
  rw [andThen_assoc]
  exact awaits_after_ask hu (rateBitAnswer_of_cons hu) fun t ht _ => hf t ht

end

section

variable {v : Byte} {s : State} {rest : List Answer}

/-- What follows the ticks of TIMA, TMA and IF: inside the window the timer is called, whatever has been stored before
(R73, R74, R76). -/
theorem askTicks_callIf_awaits {t : Nat} (c : DeviceCall) (store : Nat → State → State)
    (hstore : ∀ t u, (store t u).answers = u.answers) (h : s.answers = .ticks t :: rest) (hwin : t < s.mCycleTicks) :
    Awaits callAnswer rest (andThen (ask .getTicksSinceOverflow ticksAnswer s) fun (t, u) =>
      callIf (inWindow u t) c (store t u)) :=
  awaits_after_ask h (ticksAnswer_of_cons h) fun u hu hticks =>
    awaits_callIf c (decide_eq_true (hticks ▸ hwin)) ((hstore t u).trans hu)

theorem busWrTima_awaits_call {t : Nat} (h : s.answers = .ticks t :: rest) (hwin : t < s.mCycleTicks) :
    Awaits callAnswer rest (exec (.busWrTima v) s) :=
  (askTicks_callIf_awaits .unsetOverflow (fun t u => regWriteIf (inWindow u t) .TIMA v u) (fun _ _ => rfl)
    h hwin).andThen _

theorem busWrTma_awaits_call {t : Nat} (h : s.answers = .ticks t :: rest) (hwin : t < s.mCycleTicks) :
    Awaits callAnswer rest (exec (.busWrTma v) s) :=
  (askTicks_callIf_awaits (s := regWrite .TMA v s) (.setTIMA v) (fun _ u => u) (fun _ _ => rfl) h hwin).andThen _

theorem busWrIf_awaits_call {t : Nat} (h : s.answers = .ticks t :: rest) (hwin : t < s.mCycleTicks) :
    Awaits callAnswer rest (exec (.busWrIf v) s) :=
  (askTicks_callIf_awaits (s := regWrite .IF v s) .setIFOverride (fun _ u => u) (fun _ _ => rfl) h hwin).andThen _

theorem sampleTickSignal_awaits_rateBit {e : Bool} (h : s.answers = .enabled e :: rest) :
    Awaits rateBitAnswer rest (sampleTickSignal s) :=
  awaits_after_ask h (enabledAnswer_of_cons h) fun _ hu _ => (awaits_ask .getTickRateBit hu).andThen _

/-- Once its first sample is taken, the bus write of TAC waits where its second does (R75). -/
theorem busWrTac_awaits_of_second_sample {α : Type} {answer : State → Result α} {as : List Answer} {e r : Bool}
    (h : s.answers = .enabled e :: .rateBit r :: rest)
    (hsecond : ∀ u, u.answers = rest → Awaits answer as (sampleTickSignal u)) :
    Awaits answer as (exec (.busWrTac v) s) :=
  (awaits_after_sample h fun u hu => (hsecond (regWrite .TAC v u) hu).andThen _).andThen _

/-- On a falling edge the timer's check follows the four queries (R75). -/
theorem busWrTac_awaits_call {e1 r1 : Bool} (hfall : (e1 && r1) = false)
    (h : s.answers = .enabled true :: .rateBit true :: .enabled e1 :: .rateBit r1 :: rest) :
    Awaits callAnswer rest (exec (.busWrTac v) s) := by
  have hedge : fallingEdge (tickSignal true true) (tickSignal e1 r1) = true := by
    rw [tickSignal, tickSignal, hfall]
    rfl
  exact (awaits_after_sample h fun u hu => awaits_after_sample (s := regWrite .TAC v u) hu fun _ ht =>
    awaits_callIf .checkTIMAUnexpectedIncrease hedge ht).andThen _

/-- The surface's clear follows the video reset (R78). -/
theorem busWrLcdc_awaits_second_call {txns : List Instr} {ops : List PortOp} (hops : portOpsOf txns = some ops)
    (h : s.answers = .returns txns :: rest) (hoff : displayTurnedOff (regRead .LCDC s) v = true) :
    Awaits callAnswer rest (exec (.busWrLcdc v) s) := by
  dsimp only [exec, execBusWrLcdc, cWriteLcdc]
  rw [hoff, callIf_true]
  exact (awaits_after_call h (callAnswer_of_cons h hops) fun _ hu =>
    (awaits_callIf .surfaceClear rfl hu).andThen _).andThen _

end

/-- Settles O51: each clause is a place where the transaction waits for an answer, and the answer there faults. -/
theorem answersOfTheWrongTypeFault : Obligations.AnswersOfTheWrongTypeFault := by
  intro v s x rest
  have ticks {r : Result State} (h : Awaits ticksAnswer (x :: rest) r) (hx : ∀ t, x ≠ .ticks t) :=
    h.eq_fault fun hu => ticksAnswer_of_wrong_type hu hx
  have enabled {r : Result State} (h : Awaits enabledAnswer (x :: rest) r) (hx : ∀ b, x ≠ .enabled b) :=
    h.eq_fault fun hu => enabledAnswer_of_wrong_type hu hx
  have rateBit {r : Result State} (h : Awaits rateBitAnswer (x :: rest) r) (hx : ∀ b, x ≠ .rateBit b) :=
    h.eq_fault fun hu => rateBitAnswer_of_wrong_type hu hx
  have cart {r : Result State} (h : Awaits cartAnswer (x :: rest) r) (hx : ∀ c, x ≠ .cart c) :=
    h.eq_fault fun hu => cartAnswer_of_wrong_type hu hx
  have call {r : Result State} (h : Awaits callAnswer (x :: rest) r) (hx : ∀ txns, x ≠ .returns txns) :=
    h.eq_fault fun hu => callAnswer_of_wrong_type hu hx
  refine ⟨fun h => ⟨?joyp, ?ticks, ?enabled, ?calls, ?loads⟩, ?window, ?rateBit, ?enabled', ?rateBit', ?check, ?clear⟩
  case joyp => exact fun hx => (busRdJoyp_awaits h).eq_fault fun hu => pressedAnswer_of_wrong_type hu hx
  case ticks =>
    exact fun hx => ⟨ticks (busWrTima_awaits h) hx, ticks (busWrTma_awaits h) hx, ticks (busWrIf_awaits h) hx⟩
  case enabled => exact enabled (busWrTac_awaits_of_sample (sampleTickSignal_awaits h))
  case calls =>
    exact fun hx => ⟨call ((cWriteDivider_awaits h).andThen _) hx, call ((cWriteDivider_awaits h).andThen _) hx,
      fun hv => call (busWrDma_awaits h hv) hx, fun hoff => call (busWrLcdc_awaits h hoff) hx⟩
  case loads =>
    exact fun hx => ⟨cart ((loadCartridge_awaits h).andThen _) hx,
      fun htr => cart (busWrBootRomDisable_awaits h htr) hx⟩
  case window =>
    exact fun t h hwin hx => ⟨call (busWrTima_awaits_call h hwin) hx, call (busWrTma_awaits_call h hwin) hx,
      call (busWrIf_awaits_call h hwin) hx⟩
  case rateBit => exact fun e0 h => rateBit (busWrTac_awaits_of_sample (sampleTickSignal_awaits_rateBit h))
  case enabled' =>
    exact fun e0 r0 h => enabled (busWrTac_awaits_of_second_sample h fun _ hu => sampleTickSignal_awaits hu)
  case rateBit' =>
    exact fun e0 r0 e1 h =>
      rateBit (busWrTac_awaits_of_second_sample h fun _ hu => sampleTickSignal_awaits_rateBit hu)
  case check => exact fun e1 r1 hfall h => call (busWrTac_awaits_call hfall h)
  case clear =>
    exact fun ops h hx hoff => call (busWrLcdc_awaits_second_call (portOpsOf_map_instrOf ops) h hoff) hx

end Sys2Proof.Machine
end

section
/-! Reset and the hazards of 70_reset_and_hazards.md: what reset leaves (R112), that register writes stay inside the
register cells (R118), transactions nested in calls (R119), and the reload that failed (R121). -/

namespace Sys2Proof.Machine

/-! ## Reset -/

/-- Every register's cell lies above both images (D12, D13, D33). -/
theorem memRead_regAddr_resetWith {p : Config.Params} (cart : CartAnswer) (hp : p.valid) (id : RegId) :
    memRead (regAddr id) (State.resetWith p cart) = 0x00 := by
  have hhigh := regAddr_high id
  obtain ⟨-, hboot⟩ := hp
  exact Memory.read_afterReset_high cart hboot (by omega)

/-- Settles O11: a register reads its forced bits because its cell is 0x00, and the latch is not set for the same
reason; `State.reset` loads two empty images. -/
theorem resetLeavesTheImagesAndZeros : Obligations.ResetLeavesTheImagesAndZeros := by
  refine ⟨fun p cart hp => ⟨?cells, fun id => ⟨memRead_regAddr_resetWith cart hp id, ?masks⟩, ?latch, rfl, rfl⟩, ?reset⟩
  case cells => exact Memory.read_afterReset cart hp.2
  case masks =>
    rw [regRead_eq, memRead_regAddr_resetWith cart hp]
    exact BitVec.zero_or
  case latch =>
    rw [← Bool.not_eq_true, latchSet_iff, memRead_regAddr_resetWith cart hp]
    decide
  case reset => exact fun a => rfl

/-! ## Register writes -/

/-- Settles O21: a register store leaves the cell, so `cWrite_mem` says that a controlled write does. -/
theorem registerWritesTouchOnlyRegisterCells : Obligations.RegisterWritesTouchOnlyRegisterCells := by
  intro id v s u a ha
  constructor
  · intro h
    cases h
    exact Memory.read_write_other (ha id)
  · intro hid h
    rw [exec_busWrRow, andThen_eq_next] at h
    obtain ⟨t, ht, h⟩ := h
    cases h
    have hcell : Memory.read t.mem a = memRead a s :=
      cWrite_mem (P := fun m => Memory.read m a = memRead a s)
        (fun r _ _ hm => (Memory.read_write_other (ha r)).trans hm) hid ht rfl
    exact hcell

/-! ## The failed reload -/

/-- A set latch makes the bus write of any value a no-op: no transition, hence no store and no query (R82). -/
theorem exec_busWrBootRomDisable_of_latchSet {s : State} (h : latchSet s = true) (v : Byte) :
    exec (.busWrBootRomDisable v) s = .next { s with readData := none } := by
  have hstay : latchTransition s v = false := by rw [latchTransition, h]; rfl
  rw [exec, execBusWrBootRomDisable, cWriteBootRomDisable, hstay]
  rfl

/-- Settles O49: the failed load leaves the latch's store standing (O46), and a set latch ignores every further write. -/
theorem aFailedReloadIsNotRetriedOnTheBus : Obligations.AFailedReloadIsNotRetriedOnTheBus := by
  intro s hs hclear hcart
  obtain ⟨u, hu, hafter⟩ := (failedLoadsAreSilentNoOps.1 s hs hcart).2 hclear
  have hset : latchSet u = true := latchSet_iff.mpr ((hafter.mem _).trans (if_pos rfl))
  exact ⟨u, hu, hset, fun v => ⟨_, exec_busWrBootRomDisable_of_latchSet hset v, rfl, rfl⟩⟩

/-! ## Transactions nested in a call -/

/-- Only REG_GET and REG_SET are device-port transactions (R119). -/
theorem portOpOf_eq_none {i : Instr} (hget : ∀ id, i ≠ .regGet id) (hset : ∀ id w, i ≠ .regSet id w) :
    portOpOf i = none := by
  cases i
  case regGet id => exact absurd rfl (hget id)
  case regSet id w => exact absurd rfl (hset id w)
  all_goals rfl

/-- A called device that issues another transaction, anywhere in its list, has the call refused (R119). -/
theorem callAnswer_of_nested {s : State} {txns : List Instr} {rest : List Answer}
    (h : s.answers = .returns txns :: rest) (hnone : portOpsOf txns = none) :
    callAnswer s = .refused .nestedTransaction := by
  simp only [callAnswer, h, hnone]

/-- A transaction is refused where the answer it waits for is. -/
theorem Awaits.eq_refused {α β : Type} {answer : State → Result α} {rest : List Answer} {r : Result β} {e : Refusal}
    (h : Awaits answer rest r) (hans : ∀ {u : State}, u.answers = rest → answer u = .refused e) : r = .refused e := by
  obtain ⟨u, f, hu, rfl⟩ := h
  rw [hans hu, andThen_refused]

/-- Settles O50: each clause is a place where the transaction waits for a call to return, and the return there is
refused. -/
theorem nestedBusTransactionsAreRefused : Obligations.NestedBusTransactionsAreRefused := by
  intro v s txns rest nested hmem hget hset
  have hnone : portOpsOf txns = none := portOpsOf_eq_none.mpr ⟨nested, hmem, portOpOf_eq_none hget hset⟩
  have refused {r : Result State} (h : Awaits callAnswer (.returns txns :: rest) r) :
      r = .refused .nestedTransaction := h.eq_refused fun hu => callAnswer_of_nested hu hnone
  refine ⟨?first, ?clear, ?window, ?check⟩
  case first =>
    exact fun h => ⟨refused ((cWriteDivider_awaits h).andThen _), refused ((cWriteDivider_awaits h).andThen _),
      fun hv => refused (busWrDma_awaits h hv), fun hoff => refused (busWrLcdc_awaits h hoff)⟩
  case clear => exact fun first ops hops h hoff => refused (busWrLcdc_awaits_second_call hops h hoff)
  case window =>
    exact fun t h hwin => ⟨refused (busWrTima_awaits_call h hwin), refused (busWrTma_awaits_call h hwin),
      refused (busWrIf_awaits_call h hwin)⟩
  case check => exact fun e1 r1 hfall h => refused (busWrTac_awaits_call hfall h)

end Sys2Proof.Machine
end
